-- ==== Sys2Proof/Word.lean ====
section
/-! DEFINITION. The word types of the hardware and the 8-tuple of a Register (10_state.md R20, 00_scope.md R11). -/

namespace Sys2Proof

/-- A byte of a block (R11). -/
abbrev Byte := BitVec 8

/-- A 16-bit input word, noise word or word read from the block (R11). -/
abbrev Word := BitVec 16

/-- A lane: a 16-bit unsigned value (R20). That it is a residue is an invariant (R21), not part of the type. -/
abbrev Lane := BitVec 16

/-- A 64-bit command word, bit 0 least significant (30_encoding.md R71). -/
abbrev CmdWord := BitVec 64

/-- The 8-tuple of a Register or of its constant, lane 0 first (R20, R25). -/
structure Lanes (α : Type) where
  l0 : α
  l1 : α
  l2 : α
  l3 : α
  l4 : α
  l5 : α
  l6 : α
  l7 : α
  deriving DecidableEq, Repr

/-- Every lane holds a residue below `p` (R21). -/
abbrev Lanes.Below (p : Nat) (s : Lanes Lane) : Prop :=
  s.l0.toNat < p ∧ s.l1.toNat < p ∧ s.l2.toNat < p ∧ s.l3.toNat < p ∧
  s.l4.toNat < p ∧ s.l5.toNat < p ∧ s.l6.toNat < p ∧ s.l7.toNat < p

end Sys2Proof
end

