-- ==== Sys2Proof/Config.lean ====
section
/-! DEFINITION. What an instance of the CORE fixes before its first command: the block size and the salt table
(00_scope.md R9, R10; 10_state.md R26, R28, R29), with the constraints the spec puts on them, and the numeric
constants of 00_scope.md R8. The values of the moduli, of K1, K2 and of the unit seed stand in Machine/Params.lean. -/

namespace Sys2Proof

/-- The two Registers, named by their moduli (R20). -/
inductive Reg where
  | r251
  | r241
  deriving DecidableEq, Repr

/-- The width of the adder that takes the input word into lanes 0 and 4 (93_implementation_defined.md U2, the
parameter `ARITH`). -/
inductive Arith where
  | exact
  | wrap16
  deriving DecidableEq, Repr

/-- `LANES` (R8). -/
def lanesPerRegister : Nat := 8
/-- `LANE_BITS` (R8). -/
def laneBits : Nat := 16
/-- `SAT_MIN`: least round count of a saturation salt (R8, R27). -/
def satMin : Nat := 4
/-- `LONG_MIN`: least round count of a long-distance salt (R8, R27). -/
def longMin : Nat := 24
/-- `NSALT`: number of named salts (R8). -/
def nSalt : Nat := 5
/-- `ROUNDS_MAX`: largest round count a SALT command can carry (R9, R73). -/
def roundsMax : Nat := 2 ^ 24 - 1

/-- A Salt: "a value object {rounds, noise0, noise1}" (41_salt.md R121). -/
structure Salt where
  rounds : Nat
  noise0 : Word
  noise1 : Word
  deriving DecidableEq, Repr

/-- The constraint on an entry of the table (R26): 1 to `ROUNDS_MAX` rounds. -/
abbrev Salt.Legal (salt : Salt) : Prop := 1 ≤ salt.rounds ∧ salt.rounds ≤ roundsMax

/-- "saturation salts (rounds ≥ 4 ...)" (R27). -/
abbrev Salt.Saturation (salt : Salt) : Prop := satMin ≤ salt.rounds

/-- "long-distance salts (rounds ≥ 24 ...)" (R27). -/
abbrev Salt.LongDistance (salt : Salt) : Prop := longMin ≤ salt.rounds

/-- `SALT_TABLE[0..4]`: the named salts S0 to S4 (R26). -/
structure SaltTable where
  s0 : Salt
  s1 : Salt
  s2 : Salt
  s3 : Salt
  s4 : Salt
  deriving DecidableEq, Repr

/-- Every entry of the table is a legal Salt (R26). -/
abbrev SaltTable.Legal (t : SaltTable) : Prop :=
  t.s0.Legal ∧ t.s1.Legal ∧ t.s2.Legal ∧ t.s3.Legal ∧ t.s4.Legal

/-- The legal block sizes: "`N = 1` or `N` even and `N >= 2`" (R9, 42_absorb.md R136). -/
abbrev BlockSizeLegal (n : Nat) : Prop := n = 1 ∨ (2 ≤ n ∧ n % 2 = 0)

/-- The open part of an instance's configuration: its block size `N` and its `SALT_TABLE` (R29). -/
structure Configuration where
  blockSize : Nat
  saltTable : SaltTable
  deriving DecidableEq, Repr

/-- An instance exists as hardware only with a legal block size and legal salts (R10;
93_implementation_defined.md U5, U6). -/
abbrev Configuration.Legal (c : Configuration) : Prop :=
  BlockSizeLegal c.blockSize ∧ c.saltTable.Legal

end Sys2Proof
end

