-- ==== Sys2Proof/Syntax.lean ====
section
/-! DEFINITION. The commands: one constructor per row of spec/opcode_table.json (30_encoding.md R75), each with its
operand fields as they stand in the command word (R72, R73). -/

namespace Sys2Proof

/-- A command with its operands. The block of an ABSORB is no field of its word: it travels on the block channel
(R76). -/
inductive Instr where
  /-- RESET (40_register_step.md R108). -/
  | reset
  /-- STEP w0, w1: the input words of R251 and of R241 (R110). -/
  | step (w0 w1 : Word)
  /-- SALT rounds, noise0, noise1 (41_salt.md R122). -/
  | salt (rounds : BitVec 24) (noise0 noise1 : Word)
  /-- SALTK k (R124). -/
  | saltk (k : BitVec 3)
  /-- ABSORB (42_absorb.md R134). -/
  | absorb
  /-- EXTRACT32 (43_extract.md R153). -/
  | extract32
  /-- EXTRACT64 k (R155). -/
  | extract64 (k : BitVec 3)
  /-- EXTRACT128 k1, k2, k3 (R157). -/
  | extract128 (k1 k2 k3 : BitVec 3)
  deriving DecidableEq, Repr

/-- The eight command names, one per row of the opcode map (R75). -/
inductive Mnemonic where
  | reset
  | step
  | salt
  | saltk
  | absorb
  | extract32
  | extract64
  | extract128
  deriving DecidableEq, Repr

/-- The row of the opcode map a command belongs to (R75). -/
def Instr.mnemonic : Instr → Mnemonic
  | .reset => .reset
  | .step _ _ => .step
  | .salt _ _ _ => .salt
  | .saltk _ => .saltk
  | .absorb => .absorb
  | .extract32 => .extract32
  | .extract64 _ => .extract64
  | .extract128 _ _ _ => .extract128

end Sys2Proof
end

