-- ==== Sys2Proof/WellFormed.lean ====
section
/-! DEFINITION. The operand ranges of 30_encoding.md R75 that a command word can violate although it selects a row:
`ROUNDS >= 1`, and each salt index `<= 4`. A command outside them still decodes; its meaning refuses it with the code
the spec names (60_exceptions.md R172), so this predicate is no premise of the step. -/

namespace Sys2Proof

/-- A salt index names one of S0 to S4 (R72, 60_exceptions.md R176). -/
abbrev SaltIndexLegal (k : BitVec 3) : Prop := k.toNat < nSalt

/-- The operand constraints of R75 that depend on the word alone. -/
def Instr.wellFormed : Instr → Bool
  | .reset => true
  | .step _ _ => true
  | .salt rounds _ _ => decide (1 ≤ rounds.toNat)
  | .saltk k => decide (SaltIndexLegal k)
  | .absorb => true
  | .extract32 => true
  | .extract64 k => decide (SaltIndexLegal k)
  | .extract128 k1 k2 k3 => decide (SaltIndexLegal k1 ∧ SaltIndexLegal k2 ∧ SaltIndexLegal k3)

end Sys2Proof
end

