-- ==== Sys2Proof/Decode.lean ====
section
/-! DEFINITION. The decoder of command words (30_encoding.md R71 to R75, R79 to R81), its inverse the encoder, the
opcode map's masks and matches, and the byte form of a word (R78). The decoder does checks (1) and (2) of R85, the ones
that decide which command a word spells; checks (3) to (5) are the meanings' (log 11). -/

namespace Sys2Proof

/-- Why a word spells no command. -/
inductive DecodeError where
  /-- `OP` is 0x00 or 0x09 to 0xFF (R79). -/
  | illegalOpcode
  /-- A bit the command reserves is one (R80). -/
  | reservedField
  deriving DecidableEq, Repr

/-! ## Fields (R71, R72) -/

/-- `OP`, bits 63:56. -/
def opField (w : CmdWord) : BitVec 8 := w.extractLsb' 56 8
/-- `ROUNDS`, bits 55:32, the whole of field `A`. -/
def roundsField (w : CmdWord) : BitVec 24 := w.extractLsb' 32 24
/-- `W1`, bits 31:16. -/
def w1Field (w : CmdWord) : Word := w.extractLsb' 16 16
/-- `W0`, bits 15:0. -/
def w0Field (w : CmdWord) : Word := w.extractLsb' 0 16
/-- `KA`, bits 34:32. -/
def kaField (w : CmdWord) : BitVec 3 := w.extractLsb' 32 3
/-- `KB`, bits 37:35. -/
def kbField (w : CmdWord) : BitVec 3 := w.extractLsb' 35 3
/-- `KC`, bits 40:38. -/
def kcField (w : CmdWord) : BitVec 3 := w.extractLsb' 38 3

/-! ## Decoding -/

/-- The command an opcode byte names (R75); no other byte names one (R79). -/
def mnemonicOfOp (op : BitVec 8) : Option Mnemonic :=
  if op = 0x01#8 then some .reset
  else if op = 0x02#8 then some .step
  else if op = 0x03#8 then some .salt
  else if op = 0x04#8 then some .saltk
  else if op = 0x05#8 then some .absorb
  else if op = 0x06#8 then some .extract32
  else if op = 0x07#8 then some .extract64
  else if op = 0x08#8 then some .extract128
  else none

/-- The bits R80 reserves for the command are all zero. -/
def reservedClear (m : Mnemonic) (w : CmdWord) : Bool :=
  match m with
  | .reset | .absorb | .extract32 => w.extractLsb' 0 56 == 0
  | .step => w.extractLsb' 32 24 == 0
  | .salt => true
  | .saltk | .extract64 => w.extractLsb' 35 21 == 0 && w.extractLsb' 0 32 == 0
  | .extract128 => w.extractLsb' 41 15 == 0 && w.extractLsb' 0 32 == 0

/-- The command with its operands, each an unsigned field taken as it stands (R73). -/
def instrOfFields (m : Mnemonic) (w : CmdWord) : Instr :=
  match m with
  | .reset => .reset
  | .step => .step (w0Field w) (w1Field w)
  | .salt => .salt (roundsField w) (w0Field w) (w1Field w)
  | .saltk => .saltk (kaField w)
  | .absorb => .absorb
  | .extract32 => .extract32
  | .extract64 => .extract64 (kaField w)
  | .extract128 => .extract128 (kaField w) (kbField w) (kcField w)

/-- The decoder: first `OP`, then the reserved bits (R85). Total (R81). -/
def decode (w : CmdWord) : Except DecodeError Instr :=
  match mnemonicOfOp (opField w) with
  | none => .error .illegalOpcode
  | some m => if reservedClear m w then .ok (instrOfFields m w) else .error .reservedField

/-! ## Encoding -/

/-- The opcode numbers of R75. -/
def Mnemonic.op : Mnemonic → BitVec 8
  | .reset => 0x01#8
  | .step => 0x02#8
  | .salt => 0x03#8
  | .saltk => 0x04#8
  | .absorb => 0x05#8
  | .extract32 => 0x06#8
  | .extract64 => 0x07#8
  | .extract128 => 0x08#8

/-- A command word from its four fields, `{OP, A, W1, W0}` (R71). -/
def wordOfFields (op : BitVec 8) (a : BitVec 24) (w1 w0 : Word) : CmdWord := op ++ a ++ w1 ++ w0

/-- The command word of a command (R71, R72, R75); unused bits are zero. -/
def encode : Instr → CmdWord
  | .reset => wordOfFields Mnemonic.reset.op 0 0 0
  | .step w0 w1 => wordOfFields Mnemonic.step.op 0 w1 w0
  | .salt rounds noise0 noise1 => wordOfFields Mnemonic.salt.op rounds noise1 noise0
  | .saltk k => wordOfFields Mnemonic.saltk.op ((0#21) ++ k) 0 0
  | .absorb => wordOfFields Mnemonic.absorb.op 0 0 0
  | .extract32 => wordOfFields Mnemonic.extract32.op 0 0 0
  | .extract64 k => wordOfFields Mnemonic.extract64.op ((0#21) ++ k) 0 0
  | .extract128 k1 k2 k3 => wordOfFields Mnemonic.extract128.op ((0#15) ++ k3 ++ k2 ++ k1) 0 0

/-! ## The opcode map's masks and matches (R75) -/

/-- The "mask" column of R75. -/
def Mnemonic.rowMask : Mnemonic → CmdWord
  | .reset => 0xFFFFFFFFFFFFFFFF#64
  | .step => 0xFFFFFFFF00000000#64
  | .salt => 0xFF00000000000000#64
  | .saltk => 0xFFFFFFF8FFFFFFFF#64
  | .absorb => 0xFFFFFFFFFFFFFFFF#64
  | .extract32 => 0xFFFFFFFFFFFFFFFF#64
  | .extract64 => 0xFFFFFFF8FFFFFFFF#64
  | .extract128 => 0xFFFFFE00FFFFFFFF#64

/-- The "match" column of R75. -/
def Mnemonic.rowMatch : Mnemonic → CmdWord
  | .reset => 0x0100000000000000#64
  | .step => 0x0200000000000000#64
  | .salt => 0x0300000000000000#64
  | .saltk => 0x0400000000000000#64
  | .absorb => 0x0500000000000000#64
  | .extract32 => 0x0600000000000000#64
  | .extract64 => 0x0700000000000000#64
  | .extract128 => 0x0800000000000000#64

/-- "a word `c` selects the row when `c & mask = match`" (R75). -/
def selectsRow (m : Mnemonic) (c : CmdWord) : Bool := c &&& m.rowMask == m.rowMatch

/-! ## Words as bytes (R78) -/

/-- A command word as 8 bytes, `cmd[7:0]` first (R78). -/
def bytesOfWord (w : CmdWord) : List Byte :=
  [w.extractLsb' 0 8, w.extractLsb' 8 8, w.extractLsb' 16 8, w.extractLsb' 24 8,
   w.extractLsb' 32 8, w.extractLsb' 40 8, w.extractLsb' 48 8, w.extractLsb' 56 8]

/-- The command word that 8 bytes spell, least significant first (R78); any other number of bytes is no word (R82). -/
def wordOfBytes : List Byte → Option CmdWord
  | [b0, b1, b2, b3, b4, b5, b6, b7] => some (b7 ++ b6 ++ b5 ++ b4 ++ b3 ++ b2 ++ b1 ++ b0)
  | _ => none

/-- The command a word numbered as spec/opcode_table.json numbers it decodes to: bit 0 is `cmd[0]`, and the bits above
`nbits` are zero. A row has 64 bits; no word is longer (R82). -/
def decodeTableWord (nbits w : Nat) : Option Instr :=
  if nbits ≤ 64 then
    match wordOfBytes (bytesOfWord (BitVec.ofNat 64 (w % 2 ^ nbits))) with
    | none => none
    | some c =>
      match decode c with
      | .ok i => some i
      | .error _ => none
  else none

end Sys2Proof
end

