-- ==== Sys2Proof/Machine/Params.lean ====
section
/-! DEFINITION. The values of the hardware's parameters: the moduli and constants the source fixes (00_scope.md R8,
10_state.md R25), the ones the spec decides (R35 unit seed, R103 arithmetic), and the configuration State.reset is built
with (logs 1 and 2). They stand under Machine/ so that a test that shows one wrong can have it mended. -/

namespace Sys2Proof

/-- The moduli `P0` = 251 and `P1` = 241 (R8). -/
def Reg.modulus : Reg → Nat
  | .r251 => 251
  | .r241 => 241

/-- The feedback constants `K1` and `K2`, lane 0 first (R25). -/
def Reg.constant : Reg → Lanes Nat
  | .r251 => { l0 := 7, l1 := 1, l2 := 6, l3 := 0, l4 := 4, l5 := 1, l6 := 3, l7 := 2 }
  | .r241 => { l0 := 13, l1 := 2, l2 := 5, l3 := 10, l4 := 7, l5 := 0, l6 := 10, l7 := 1 }

/-- `UNIT_SEED`: lane 0 and lane 4 hold 1 and the other six lanes hold 0 (R35). -/
def unitSeed : Lanes Lane :=
  { l0 := 1, l1 := 0, l2 := 0, l3 := 0, l4 := 1, l5 := 0, l6 := 0, l7 := 0 }

/-- `ARITH`: the spec's instantiation is `exact` (40_register_step.md R103; log 4). -/
def arith : Arith := .exact

/-- The reference table of 93_implementation_defined.md G2. PRESUMED (log 2): the source gives no entry. -/
def referenceTable : SaltTable :=
  { s0 := { rounds := 7, noise0 := 2, noise1 := 3 }
    s1 := { rounds := 6, noise0 := 4, noise1 := 7 }
    s2 := { rounds := 31, noise0 := 8, noise1 := 11 }
    s3 := { rounds := 29, noise0 := 9, noise1 := 5 }
    s4 := { rounds := 37, noise0 := 2, noise1 := 13 } }

/-- The configuration of State.reset. DESIGN CHOICE `N = 4` (log 1) and PRESUMED table (log 2); every other
configuration is a value of the same field of State. -/
def resetConfiguration : Configuration :=
  { blockSize := 4, saltTable := referenceTable }

end Sys2Proof
end

