-- ==== Sys2Proof/Machine/State.lean ====
section
/-! DEFINITION. The state of an instance and of its three channels (10_state.md R20, R26, R28, R34, R36; 20_memory.md
R50; 30_encoding.md R70), the state after construction (R36, 70_reset_and_hazards.md R200), and the model's stops. -/

namespace Sys2Proof.Machine

/-- The status of a response (60_exceptions.md R172). Codes 0x07 to 0xFF are never produced, so they are no value. -/
inductive Status where
  | ok
  | illegalOpcode
  | reservedField
  | zeroRounds
  | saltIndex
  | saltClass
  | blockLength
  deriving DecidableEq, Repr

/-- A response `{status[7:0], data[127:0]}` (R77). -/
structure Response where
  status : Status
  data : BitVec 128
  deriving DecidableEq, Repr

/-- The Engine or Register Pair, "gens": the two Registers and nothing else (R2, R20). -/
structure Engine where
  r251 : Lanes Lane
  r241 : Lanes Lane
  deriving DecidableEq, Repr

/-- The block window as cells (offset, byte), offsets strictly rising. An offset that is not listed does not exist
(20_memory.md R54): reading it gives no value (log 8). -/
abbrev Memory := List Host.Cell

/-- The canonical form of a window: offsets strictly rise. No cell can repeat what an unlisted offset reads as, since
that is no value. -/
abbrev Memory.wf (m : Memory) : Prop := m.Pairwise (fun a b => a.1 < b.1)

/-- Everything the spec gives the machine: the 16 lanes, the instance's read-only configuration, the block window of the
command in progress, and the three channels at which the CORE meets the host, each oldest item first. -/
structure State where
  /-- `R251` and `R241` (R20). -/
  engine : Engine
  /-- `N` and `SALT_TABLE`, fixed for the life of the instance (R28, R29). -/
  config : Configuration
  /-- The block window; it holds nothing between two commands (R36, R50). -/
  window : Memory
  /-- Command words sent and not yet taken (R70). -/
  cmdChan : List CmdWord
  /-- Payloads sent and not yet taken, one list of bytes each (R70, R76; log 7). -/
  blockChan : List (List Byte)
  /-- Responses emitted (R70, R77; log 9). -/
  respChan : List Response
  deriving DecidableEq, Repr

/-- What stops the machine with a fault. -/
inductive Fault where
  /-- Raised by ABSORB when an offset it computes is not in the window (R54). Safe: for a legal block size no offset is
  outside (42_absorb.md R139), so only a state that is no instance of the hardware stops here. -/
  | outsideWindow
  deriving DecidableEq, Repr

/-- What the machine has no meaning for. -/
inductive Refusal where
  /-- Raised by exec's arm of a command that is not modelled yet. Safe. No arm raises it. -/
  | notModelled (mnemonic : String)
  /-- Raised by step when the configuration is none the hardware can have (R10; 93_implementation_defined.md U5, U6:
  treatment `refuse`). Safe: such an instance does not exist. -/
  | illegalConfiguration
  deriving DecidableEq, Repr

/-- Both Registers at the unit seed (R35, R108). -/
def Engine.seed : Engine := { r251 := unitSeed, r241 := unitSeed }

/-- A fresh instance with configuration `c` (R36, R200): both Registers at the unit seed, the window empty, nothing on any
channel. -/
def State.fresh (c : Configuration) : State :=
  { engine := Engine.seed, config := c, window := [], cmdChan := [], blockChan := [], respChan := [] }

/-- Construction: an instance comes into being with its configuration, and "the model refuses to construct" one whose
configuration the hardware cannot have (00_scope.md R10; R200). -/
def State.construct (c : Configuration) : Option State := if c.Legal then some (State.fresh c) else none

/-- The machine right after reset: a fresh instance of the configuration that logs 1 and 2 name. -/
def State.reset : State := State.fresh resetConfiguration

end Sys2Proof.Machine
end

