-- ==== Sys2Proof/Machine/Ops.lean ====
section
/-! DEFINITION. The shared operations: the step of a Register (40_register_step.md R102), the pair step (R106), salt
application (41_salt.md R120), the fold and the digest word (43_extract.md R150, R152), the response that ends a command
(30_encoding.md R77) and the refusal that takes a command's place (60_exceptions.md R171). There is no trap entry and no
return: a refusal transfers control nowhere and nothing is entered (R182, R183). -/

namespace Sys2Proof.Machine

/-! ## The step of a Register -/

/-- The parameter `STEPFN` (00_scope.md R9): the new 8-tuple of a Register from its 8-tuple and an input word. The
operations on the Engine take it as an argument, so that what does not depend on the formula can be said for every one
(93_implementation_defined.md U1). -/
abbrev StepFn := Reg → Lanes Lane → Word → Lanes Lane

/-- The sum that takes the input word `w` into the bottom lane of a half, with feedback product `f` (R103; U2). -/
def inputSum (a : Arith) (w f : Nat) : Nat :=
  match a with
  | .exact => w + f
  | .wrap16 => (w + f) % 65536

/-- The step function, defined once for modulus `p` and constant `k` (R102, R113): two 4-lane halves in Galois form with
feedback lanes 3 and 7, the same input word into lanes 0 and 4 (R101). Every right-hand side reads the old state. -/
def registerStep (a : Arith) (p : Nat) (k : Lanes Nat) (s : Lanes Lane) (w : Word) : Lanes Lane :=
  let v0 := s.l3.toNat
  let v1 := s.l7.toNat
  { l0 := BitVec.ofNat 16 (inputSum a w.toNat (v0 * k.l0) % p)
    l1 := BitVec.ofNat 16 ((s.l0.toNat + v0 * k.l1) % p)
    l2 := BitVec.ofNat 16 ((s.l1.toNat + v0 * k.l2) % p)
    l3 := BitVec.ofNat 16 ((s.l2.toNat + v0 * k.l3) % p)
    l4 := BitVec.ofNat 16 (inputSum a w.toNat (v1 * k.l4) % p)
    l5 := BitVec.ofNat 16 ((s.l4.toNat + v1 * k.l5) % p)
    l6 := BitVec.ofNat 16 ((s.l5.toNat + v1 * k.l6) % p)
    l7 := BitVec.ofNat 16 ((s.l6.toNat + v1 * k.l7) % p) }

/-- The step of Register `r` under an arithmetic (R102, U2). -/
def stepFnOf (a : Arith) : StepFn := fun r s w => registerStep a r.modulus r.constant s w

/-- `STEPFN` as the spec instantiates it: `step(r, s, w)` of R102 with the arithmetic of R103. -/
def stepFn : StepFn := stepFnOf arith

/-! ## The Engine -/

/-- `pair_step(w0, w1)`: both Registers advance once, each with its own input word (R106). -/
def Engine.pairStep (f : StepFn) (w0 w1 : Word) (e : Engine) : Engine :=
  { r251 := f .r251 e.r251 w0, r241 := f .r241 e.r241 w1 }

/-- The pair steps of a list of input pairs (input of R251, input of R241), in order (42_absorb.md R137). -/
def Engine.feed (f : StepFn) (inputs : List (Word × Word)) (e : Engine) : Engine :=
  inputs.foldl (fun e w => e.pairStep f w.1 w.2) e

/-- `salt(q, n0, n1)`: `q` times `pair_step(n0, n1)` (R120). -/
def Engine.saltRounds (f : StepFn) (q : Nat) (n0 n1 : Word) (e : Engine) : Engine :=
  (fun e => Engine.pairStep f n0 n1 e)^[q] e

/-- Applying a Salt (R121). -/
def Engine.salt (f : StepFn) (salt : Salt) (e : Engine) : Engine :=
  e.saltRounds f salt.rounds salt.noise0 salt.noise1

/-! ## The Extractor -/

/-- Byte `g` of the fold of a Register from lanes `g` and `g + 4`: `(R[g] xor R[g+4])[7:0]` (R150). -/
def foldByte (low high : Lane) : Byte := (low ^^^ high).extractLsb' 0 8

/-- Byte `c[g]` of the digest word from the four lanes of group {g, g+4} (R152). -/
def digestByte (a0 a4 b0 b4 : Lane) : Byte := foldByte a0 a4 ^^^ foldByte b0 b4

/-- `x32()`: the digest word, group {0,4} in the most significant byte (R152). -/
def Engine.x32 (e : Engine) : BitVec 32 :=
  digestByte e.r251.l0 e.r251.l4 e.r241.l0 e.r241.l4 ++
  digestByte e.r251.l1 e.r251.l5 e.r241.l1 e.r241.l5 ++
  digestByte e.r251.l2 e.r251.l6 e.r241.l2 e.r241.l6 ++
  digestByte e.r251.l3 e.r251.l7 e.r241.l3 e.r241.l7

/-! ## The state -/

/-- Write both Registers. -/
def State.withEngine (s : State) (e : Engine) : State := { s with engine := e }

/-- The end of an ABSORB: the window ceases to exist (20_memory.md R50). -/
def State.closeWindow (s : State) : State := { s with window := [] }

/-- Emit the response of the command (R77). -/
def State.respond (s : State) (status : Status) (data : BitVec 128) : State :=
  { s with respChan := s.respChan ++ [{ status := status, data := data }] }

/-- A refusal: no lane changes, the response carries the code and data 0, and the next command is taken as if the
refused one had not been sent (R171). The word and the payload are consumed where the command is taken. -/
def State.refuse (s : State) (status : Status) : State := s.respond status 0

/-! ## The block window -/

/-- The cells of a payload from offset `a` on. -/
def Memory.ofBytesFrom (a : Nat) : List Byte → Memory
  | [] => []
  | b :: bs => (a, b) :: Memory.ofBytesFrom (a + 1) bs

/-- The window of a payload: `block[0]` at offset 0 (20_memory.md R50, R76). -/
def Memory.ofPayload (block : List Byte) : Memory := Memory.ofBytesFrom 0 block

/-- `MemRead(off, 1)` (R52). An offset that is not in the window does not exist (R54). -/
def Memory.readByte : Memory → Nat → Option Byte
  | [], _ => none
  | (a, b) :: m, off => if a = off then some b else Memory.readByte m off

/-- `MemRead(off, 2) = block[off] | (block[off + 1] << 8)` (R53). -/
def Memory.readWord (m : Memory) (off : Nat) : Option Word :=
  match m.readByte off, m.readByte (off + 1) with
  | some lo, some hi => some (lo.setWidth 16 ||| (hi.setWidth 16 <<< 8))
  | _, _ => none

/-- The window opens when an ABSORB and its bytes have arrived (R50); other commands bring no payload. -/
def State.openWindow (s : State) (payload : Option (List Byte)) : State :=
  match payload with
  | none => s
  | some block => { s with window := Memory.ofPayload block }

end Sys2Proof.Machine
end

