-- ==== Sys2Proof/Machine/Operands.lean ====
section
/-! DEFINITION. The operand forms: a Salt carried by the command word, a Salt named by an index into the table
(10_state.md R26, 30_encoding.md R72), and the input words ABSORB reads from the block window (42_absorb.md R131 to
R135). -/

namespace Sys2Proof

/-- The Salt whose fields stand in the command word (41_salt.md R122). -/
def saltOfFields (rounds : BitVec 24) (noise0 noise1 : Word) : Salt :=
  { rounds := rounds.toNat, noise0 := noise0, noise1 := noise1 }

/-- `SALT_TABLE[k]`; 5, 6 and 7 name no salt (R26, 60_exceptions.md R176). -/
def SaltTable.entry (t : SaltTable) (k : BitVec 3) : Option Salt :=
  match k.toNat with
  | 0 => some t.s0
  | 1 => some t.s1
  | 2 => some t.s2
  | 3 => some t.s3
  | 4 => some t.s4
  | _ => none

namespace Machine

/-- `dup(b) = b | (b << 8)` (42_absorb.md R133). -/
def dup (b : Byte) : Word := b.setWidth 16 ||| (b.setWidth 16 <<< 8)

/-- The input words of one pair step, if both reads are inside the window. -/
def inputPair : Option Word → Option Word → Option (Word × Word)
  | some a, some b => some (a, b)
  | _, _ => none

/-- Main pass: for `i` in 0 .. N/2 - 1 the words at `2i` (R131) and at `N - 2 - 2i` (R132). -/
def mainPass (n : Nat) (m : Memory) : List (Option (Word × Word)) :=
  (List.range (n / 2)).map fun i => inputPair (m.readWord (2 * i)) (m.readWord (n - 2 - 2 * i))

/-- Boundary pass: if `N > 2`, the words at offsets 1 and `N - 3`, three times in a row (R135). -/
def boundaryPass (n : Nat) (m : Memory) : List (Option (Word × Word)) :=
  if 2 < n then List.replicate 3 (inputPair (m.readWord 1) (m.readWord (n - 3))) else []

/-- Final step: the word made of `block[0]` twice, to both Registers (R133). -/
def finalStep (m : Memory) : Option (Word × Word) :=
  match m.readByte 0 with
  | some b => some (dup b, dup b)
  | none => none

/-- Every read inside the window, or none. -/
def allInside : List (Option (Word × Word)) → Option (List (Word × Word))
  | [] => some []
  | none :: _ => none
  | some w :: ws =>
    match allInside ws with
    | some l => some (w :: l)
    | none => none

/-- The input words of an ABSORB in step order (R134). -/
def absorbInputs (n : Nat) (m : Memory) : Option (List (Word × Word)) :=
  allInside (mainPass n m ++ boundaryPass n m ++ [finalStep m])

end Machine

end Sys2Proof
end

