-- ==== Sys2Proof/Machine/Flags.lean ====
section
/-! DEFINITION. The CORE has no flags (10_state.md R31); the one condition a command reports is the status of its
response. Here are the status codes (60_exceptions.md R172) and the checks (3) to (5) of 30_encoding.md R85 that
decide them, each before any lane is written (R170). -/

namespace Sys2Proof

/-- The status of a word that spells no command (R79, R80). -/
def DecodeError.status : DecodeError → Machine.Status
  | .illegalOpcode => .illegalOpcode
  | .reservedField => .reservedField

namespace Machine

/-- The code of a status, `status[7:0]` (R172). -/
def Status.code : Status → BitVec 8
  | .ok => 0x00#8
  | .illegalOpcode => 0x01#8
  | .reservedField => 0x02#8
  | .zeroRounds => 0x03#8
  | .saltIndex => 0x04#8
  | .saltClass => 0x05#8
  | .blockLength => 0x06#8

/-- The Salt of a SALT command, or ZERO_ROUNDS (R122, R175). -/
def checkedRounds (rounds : BitVec 24) (noise0 noise1 : Word) : Except Status Salt :=
  if rounds = 0 then .error .zeroRounds else .ok (saltOfFields rounds noise0 noise1)

/-- The named Salt, or SALT_INDEX (R124, R176). -/
def checkedIndex (t : SaltTable) (k : BitVec 3) : Except Status Salt :=
  match t.entry k with
  | some salt => .ok salt
  | none => .error .saltIndex

/-- The named Salt of an EXTRACT64: index, then class (R155, R178). -/
def checkedLong (t : SaltTable) (k : BitVec 3) : Except Status Salt :=
  match t.entry k with
  | none => .error .saltIndex
  | some salt => if salt.LongDistance then .ok salt else .error .saltClass

/-- The named Salts of an EXTRACT128: all three indices, then all three classes (R157, R179). -/
def checkedLongs (t : SaltTable) (k1 k2 k3 : BitVec 3) : Except Status (Salt × Salt × Salt) :=
  match t.entry k1, t.entry k2, t.entry k3 with
  | some s1, some s2, some s3 =>
    if s1.LongDistance ∧ s2.LongDistance ∧ s3.LongDistance then .ok (s1, s2, s3) else .error .saltClass
  | _, _, _ => .error .saltIndex

/-- The payload of an ABSORB is exactly `N` bytes (R134, R177). -/
def blockLengthOk (n : Nat) (m : Memory) : Bool := m.length == n

end Machine

end Sys2Proof
end

