-- ==== Sys2Proof/Machine/AbsorbFamily.lean ====
section
/-! DEFINITION. ABSORB (42_absorb.md R134). -/

namespace Sys2Proof.Machine

/-- ABSORB: main pass, boundary pass and final step over the block in the window, which ends with the command
(R134, 20_memory.md R50). A payload of another length than `N` is refused and discarded (R177, R171). -/
def execAbsorb (s : State) : Host.Outcome State Fault Refusal :=
  match blockLengthOk s.config.blockSize s.window with
  | false => .next (s.closeWindow.refuse .blockLength)
  | true =>
    match absorbInputs s.config.blockSize s.window with
    | some inputs => .next ((s.withEngine (s.engine.feed stepFn inputs)).closeWindow.respond .ok 0)
    | none => .fault .outsideWindow

end Sys2Proof.Machine
end

