-- ==== Sys2Proof/Machine/ExtractFamily.lean ====
section
/-! DEFINITION. EXTRACT32, EXTRACT64 and EXTRACT128 (43_extract.md R153, R155, R157). -/

namespace Sys2Proof.Machine

/-- EXTRACT32: a pure read; the word right-aligned in the response (R153). -/
def execExtract32 (s : State) : Host.Outcome State Fault Refusal :=
  .next (s.respond .ok (s.engine.x32.setWidth 128))

/-- EXTRACT64 k: word, salt, word; the first word is the high word (R155). -/
def execExtract64 (k : BitVec 3) (s : State) : Host.Outcome State Fault Refusal :=
  match checkedLong s.config.saltTable k with
  | .error status => .next (s.refuse status)
  | .ok salt =>
    let e1 := s.engine.salt stepFn salt
    .next ((s.withEngine e1).respond .ok ((s.engine.x32 ++ e1.x32).setWidth 128))

/-- EXTRACT128 k1, k2, k3: four words with a salt between each two, most significant first (R156, R157). -/
def execExtract128 (k1 k2 k3 : BitVec 3) (s : State) : Host.Outcome State Fault Refusal :=
  match checkedLongs s.config.saltTable k1 k2 k3 with
  | .error status => .next (s.refuse status)
  | .ok (salt1, salt2, salt3) =>
    let e1 := s.engine.salt stepFn salt1
    let e2 := e1.salt stepFn salt2
    let e3 := e2.salt stepFn salt3
    .next ((s.withEngine e3).respond .ok (s.engine.x32 ++ e1.x32 ++ e2.x32 ++ e3.x32))

end Sys2Proof.Machine
end

