-- ==== Sys2Proof/Machine/RegisterFamily.lean ====
section
/-! DEFINITION. RESET and STEP (40_register_step.md R108, R110). -/

namespace Sys2Proof.Machine

/-- RESET: both Registers to the unit seed; nothing else changes (R108, R201). -/
def execReset (s : State) : Host.Outcome State Fault Refusal :=
  .next ((s.withEngine Engine.seed).respond .ok 0)

/-- STEP w0, w1: one pair step (R110). Every pair of words is legal (R74). -/
def execStep (w0 w1 : Word) (s : State) : Host.Outcome State Fault Refusal :=
  .next ((s.withEngine (s.engine.pairStep stepFn w0 w1)).respond .ok 0)

end Sys2Proof.Machine
end

