-- ==== Sys2Proof/Machine/SaltFamily.lean ====
section
/-! DEFINITION. SALT and SALTK (41_salt.md R122, R124). -/

namespace Sys2Proof.Machine

/-- The end of a salt command: apply the Salt, or refuse (R120, R171). -/
def saltOrRefuse (checked : Except Status Salt) (s : State) : Host.Outcome State Fault Refusal :=
  match checked with
  | .ok salt => .next ((s.withEngine (s.engine.salt stepFn salt)).respond .ok 0)
  | .error status => .next (s.refuse status)

/-- SALT rounds, noise0, noise1: any salt of one round or more (R122). -/
def execSalt (rounds : BitVec 24) (noise0 noise1 : Word) (s : State) : Host.Outcome State Fault Refusal :=
  saltOrRefuse (checkedRounds rounds noise0 noise1) s

/-- SALTK k: the named salt `Sk` (R124). -/
def execSaltk (k : BitVec 3) (s : State) : Host.Outcome State Fault Refusal :=
  saltOrRefuse (checkedIndex s.config.saltTable k) s

end Sys2Proof.Machine
end

