-- ==== Sys2Proof/Machine/Dispatch.lean ====
section
/-! DEFINITION. One arm per command (30_encoding.md R75). -/

namespace Sys2Proof.Machine

def exec (i : Instr) (s : State) : Host.Outcome State Fault Refusal :=
  match i with
  | .reset => Sys2Proof.Machine.execReset s
  | .step w0 w1 => Sys2Proof.Machine.execStep w0 w1 s
  | .salt rounds noise0 noise1 => Sys2Proof.Machine.execSalt rounds noise0 noise1 s
  | .saltk k => Sys2Proof.Machine.execSaltk k s
  | .absorb => Sys2Proof.Machine.execAbsorb s
  | .extract32 => Sys2Proof.Machine.execExtract32 s
  | .extract64 k => Sys2Proof.Machine.execExtract64 k s
  | .extract128 k1 k2 k3 => Sys2Proof.Machine.execExtract128 k1 k2 k3 s

end Sys2Proof.Machine
end

