-- ==== Sys2Proof/Machine/Fetch.lean ====
section
/-! DEFINITION. How the CORE takes a command from its channels and how the host puts one there (30_encoding.md R70, R76;
20_memory.md R50). -/

namespace Sys2Proof.Machine

/-- A command the CORE has taken: its word, its payload if it brings one, and the state with both off their channels. -/
structure Taken where
  word : CmdWord
  payload : Option (List Byte)
  rest : State
  deriving DecidableEq, Repr

/-- A word whose `OP` is ABSORB's brings a payload, whether or not its reserved bits are clear (R76, R171; log 6). -/
def bringsBlock (w : CmdWord) : Bool := opField w == Mnemonic.absorb.op

/-- Take the next command word and, for an ABSORB, its payload. None is taken while there is no word, or while the
payload of an ABSORB has not come (R70, R76, 70_reset_and_hazards.md R202, R228; logs 5 and 6). -/
def State.takeCommand (s : State) : Option Taken :=
  match s.cmdChan with
  | [] => none
  | w :: ws =>
    if bringsBlock w then
      match s.blockChan with
      | [] => none
      | b :: bs => some { word := w, payload := some b, rest := { s with cmdChan := ws, blockChan := bs } }
    else some { word := w, payload := none, rest := { s with cmdChan := ws } }

/-- Put a command word, and a payload if there is one, at the head of the channels: the next to be taken. -/
def State.offerFirst (s : State) (w : CmdWord) (payload : Option (List Byte)) : State :=
  match payload with
  | none => { s with cmdChan := w :: s.cmdChan }
  | some b => { s with cmdChan := w :: s.cmdChan, blockChan := b :: s.blockChan }

/-- The payload a lone table word is given: `N` zero bytes for an ABSORB, which has no bits for its block (log 12). -/
def State.zeroBlockFor (s : State) (w : CmdWord) : Option (List Byte) :=
  if bringsBlock w then some (List.replicate s.config.blockSize 0) else none

end Sys2Proof.Machine
end

