-- ==== Sys2Proof/Machine/Sequencer.lean ====
section
/-! DEFINITION. The sequencer: take a command, decode it, execute or refuse it (30_encoding.md R70, R85; 10_state.md
R30, R34; 60_exceptions.md R171). One command is one step: the host never sees a state inside a command (R34). -/

namespace Sys2Proof.Machine

/-- Decode a taken word and execute the command with its block in the window, or answer the refusal and discard the
payload (R85, R171). -/
def Taken.perform (t : Taken) : Host.Outcome State Fault Refusal :=
  match decode t.word with
  | .error e => .next (t.rest.refuse e.status)
  | .ok i => exec i (t.rest.openWindow t.payload)

/-- One command, or waiting for one (R202: "After construction the CORE waits for its first command"). A state whose
configuration the hardware cannot have is refused (R10). -/
def sequenceOne (s : State) : Host.Outcome State Fault Refusal :=
  if s.config.Legal then
    match s.takeCommand with
    | none => .next s
    | some t => t.perform
  else .refused .illegalConfiguration

end Sys2Proof.Machine
end

