-- ==== Sys2Proof/Machine/Step.lean ====
section
/-! DEFINITION. One step of the machine, and the placing of one command where the step takes its next (log 12). -/

namespace Sys2Proof.Machine

/-- One step: the sequencer takes, decodes and executes one command. -/
def step (s : State) : Host.Outcome State Fault Refusal := sequenceOne s

/-- `s` with the word `w` of `nbits` bits, and for an ABSORB a payload of `N` zero bytes, next on the channels. -/
def State.withFetchWord (s : State) (nbits w : Nat) : State :=
  s.offerFirst (BitVec.ofNat 64 (w % 2 ^ nbits)) (s.zeroBlockFor (BitVec.ofNat 64 (w % 2 ^ nbits)))

end Sys2Proof.Machine
end

