-- ==== Sys2Proof/Machine/Assembler.lean ====
section
/-! DEFINITION. The assembler notation of 30_encoding.md R83: one command a line, the mnemonic first, then the
operands in the order of the source's Salt fields. A line is kept as data; its text form is one rendering of it (log
17). -/

namespace Sys2Proof

/-- An operand of a line: a number, or the bytes of a block between braces. -/
inductive AsmOperand where
  | number (n : Nat)
  | block (bytes : List Byte)
  deriving DecidableEq, Repr

/-- A line: mnemonic, then operands. -/
structure AsmLine where
  mnemonic : Mnemonic
  operands : List AsmOperand
  deriving DecidableEq, Repr

/-- The line of a command; `block` is the payload of an ABSORB and is ignored otherwise (R83). -/
def asmOf (i : Instr) (block : List Byte) : AsmLine :=
  match i with
  | .reset => { mnemonic := .reset, operands := [] }
  | .step w0 w1 => { mnemonic := .step, operands := [.number w0.toNat, .number w1.toNat] }
  | .salt r n0 n1 => { mnemonic := .salt, operands := [.number r.toNat, .number n0.toNat, .number n1.toNat] }
  | .saltk k => { mnemonic := .saltk, operands := [.number k.toNat] }
  | .absorb => { mnemonic := .absorb, operands := [.block block] }
  | .extract32 => { mnemonic := .extract32, operands := [] }
  | .extract64 k => { mnemonic := .extract64, operands := [.number k.toNat] }
  | .extract128 k1 k2 k3 =>
    { mnemonic := .extract128, operands := [.number k1.toNat, .number k2.toNat, .number k3.toNat] }

/-- A number that fits a field of `w` bits. -/
def fieldOfNumber (w n : Nat) : Option (BitVec w) := if n < 2 ^ w then some (BitVec.ofNat w n) else none

/-- The command and payload a line stands for, if its operands have the number, kind and range of R71 and R83. -/
def AsmLine.command (l : AsmLine) : Option (Instr × Option (List Byte)) :=
  match l.mnemonic, l.operands with
  | .reset, [] => some (.reset, none)
  | .step, [.number a, .number b] =>
    match fieldOfNumber 16 a, fieldOfNumber 16 b with
    | some w0, some w1 => some (.step w0 w1, none)
    | _, _ => none
  | .salt, [.number q, .number a, .number b] =>
    match fieldOfNumber 24 q, fieldOfNumber 16 a, fieldOfNumber 16 b with
    | some r, some n0, some n1 => some (.salt r n0 n1, none)
    | _, _, _ => none
  | .saltk, [.number a] =>
    match fieldOfNumber 3 a with
    | some k => some (.saltk k, none)
    | none => none
  | .absorb, [.block bytes] => some (.absorb, some bytes)
  | .extract32, [] => some (.extract32, none)
  | .extract64, [.number a] =>
    match fieldOfNumber 3 a with
    | some k => some (.extract64 k, none)
    | none => none
  | .extract128, [.number a, .number b, .number c] =>
    match fieldOfNumber 3 a, fieldOfNumber 3 b, fieldOfNumber 3 c with
    | some k1, some k2, some k3 => some (.extract128 k1 k2 k3, none)
    | _, _, _ => none
  | _, _ => none

/-- The mnemonic as R75 and the opcode table spell it. -/
def Mnemonic.text : Mnemonic → String
  | .reset => "RESET"
  | .step => "STEP"
  | .salt => "SALT"
  | .saltk => "SALTK"
  | .absorb => "ABSORB"
  | .extract32 => "EXTRACT32"
  | .extract64 => "EXTRACT64"
  | .extract128 => "EXTRACT128"

/-- An operand as text: a number in decimal, a block as its bytes between braces (R83). -/
def AsmOperand.text : AsmOperand → String
  | .number n => toString n
  | .block bytes =>
    String.singleton (Char.ofNat 0x7B) ++ String.intercalate ", " (bytes.map fun b => toString b.toNat)
      ++ String.singleton (Char.ofNat 0x7D)

/-- A line as text: the mnemonic, a space, the operands separated by commas (R83). -/
def AsmLine.text (l : AsmLine) : String :=
  match l.operands with
  | [] => l.mnemonic.text
  | os => l.mnemonic.text ++ " " ++ String.intercalate ", " (os.map AsmOperand.text)

end Sys2Proof
end

