-- ==== Sys2Proof/Machine/Transport.lean ====
section
/-! DEFINITION. A response as the bytes of a channel narrower than an item (30_encoding.md R78). Transport only: no step
depends on it (log 16). The byte form of a command word stands in Decode.lean. -/

namespace Sys2Proof.Machine

/-- "the status byte followed by the 16 data bytes with `data[7:0]` first" (R78). -/
def bytesOfResponse (r : Response) : List Byte :=
  r.status.code :: (List.range 16).map fun j => r.data.extractLsb' (8 * j) 8

end Sys2Proof.Machine
end

