-- ==== Sys2Proof/Machine/Driver.lean ====
section
/-! DEFINITION. The host as the source's File Driver: cutting and padding a file into blocks (70_reset_and_hazards.md
R218), the two strategies (R219, R220) as the commands they send, and the digest made of the responses (R156, R227).
The driver is outside the CORE (00_scope.md R3, R7): no step calls anything here. What the source leaves open is an
argument: `SALT_SCHEDULE` and `EMPTY_INPUT_POLICY` (logs 14 and 15). -/

namespace Sys2Proof.Machine

/-! ## What the host sends -/

/-- A command the host sends, with its payload if it is an ABSORB. -/
structure Offer where
  instr : Instr
  payload : Option (List Byte)
  deriving DecidableEq, Repr

/-- A command without a payload. -/
def Offer.plain (i : Instr) : Offer := { instr := i, payload := none }

/-- An ABSORB with its block. -/
def Offer.absorb (block : List Byte) : Offer := { instr := .absorb, payload := some block }

/-- A salt the host sends: free operands through SALT, or a named salt through SALTK (R212, R217). -/
inductive SaltUse where
  | immediate (rounds : BitVec 24) (noise0 noise1 : Word)
  | named (k : BitVec 3)
  deriving DecidableEq, Repr

/-- The command of a salt. -/
def SaltUse.instr : SaltUse → Instr
  | .immediate r n0 n1 => .salt r n0 n1
  | .named k => .saltk k

/-- The round count of a salt the CORE executes; none for one it refuses (R122, R124). -/
def SaltUse.rounds (t : SaltTable) : SaltUse → Option Nat
  | .immediate r _ _ => if r = 0 then none else some r.toNat
  | .named k =>
    match t.entry k with
    | some salt => some salt.rounds
    | none => none

/-- The commands of a list of salts. -/
def saltOffers (l : List SaltUse) : List Offer := l.map fun u => Offer.plain u.instr

/-- Put offers at the end of the channels, in order (R64, R70). -/
def State.offer (s : State) (os : List Offer) : State :=
  { s with cmdChan := s.cmdChan ++ os.map (fun o => encode o.instr)
           blockChan := s.blockChan ++ os.filterMap (fun o => o.payload) }

/-- Execute offers one after the other, without the channels. -/
def serve : List Offer → State → Host.Outcome State Fault Refusal
  | [], s => .next s
  | o :: os, s =>
    match exec o.instr (s.openWindow o.payload) with
    | .next s' => serve os s'
    | .fault r => .fault r
    | .refused r => .refused r

/-! ## Blocks (R218) -/

/-- A block filled up with zero bytes to `n` bytes (R218). -/
def padBlock (n : Nat) (bytes : List Byte) : List Byte := bytes ++ List.replicate (n - bytes.length) 0

/-- Cut bytes into blocks of `n`, at most `fuel` of them, the last one padded. -/
def cutBlocks (n : Nat) : Nat → List Byte → List (List Byte)
  | 0, _ => []
  | _ + 1, [] => []
  | fuel + 1, bytes => padBlock n (bytes.take n) :: cutBlocks n fuel (bytes.drop n)

/-- The blocks of a file: "A file whose length is a multiple of `N` gets no extra block" (R218). -/
def blocksOf (n : Nat) (file : List Byte) : List (List Byte) := cutBlocks n file.length file

/-! ## Reading words (R212, R215, R232) -/

/-- How the host reads the four words of a digest: "or one EXTRACT128", or EXTRACT32 four times with salts before the
second, third and fourth (R212, R220). -/
inductive Reading where
  | composite (k1 k2 k3 : BitVec 3)
  | words (beforeWord1 beforeWord2 beforeWord3 : List SaltUse)
  deriving DecidableEq, Repr

/-- The commands of a reading (R212). -/
def Reading.offers : Reading → List Offer
  | .composite k1 k2 k3 => [Offer.plain (.extract128 k1 k2 k3)]
  | .words l1 l2 l3 =>
    [Offer.plain .extract32] ++ saltOffers l1 ++ [Offer.plain .extract32] ++ saltOffers l2 ++
    [Offer.plain .extract32] ++ saltOffers l3 ++ [Offer.plain .extract32]

/-- The salts between the words, in order (R215). -/
def Reading.salts : Reading → List (List SaltUse)
  | .composite k1 k2 k3 => [[.named k1], [.named k2], [.named k3]]
  | .words l1 l2 l3 => [l1, l2, l3]

/-- The words in the data of a response, first extracted first (30_encoding.md R77). -/
def wordsIn (i : Instr) (data : BitVec 128) : List (BitVec 32) :=
  match i with
  | .extract32 => [data.extractLsb' 0 32]
  | .extract64 _ => [data.extractLsb' 32 32, data.extractLsb' 0 32]
  | .extract128 _ _ _ => [data.extractLsb' 96 32, data.extractLsb' 64 32, data.extractLsb' 32 32, data.extractLsb' 0 32]
  | .reset | .step _ _ | .salt _ _ _ | .saltk _ | .absorb => []

/-- The words of a computation after one more command: a non-zero status is terminal, RESET starts again (R227, R232). -/
def readOne (words : Option (List (BitVec 32))) (o : Offer) (r : Response) : Option (List (BitVec 32)) :=
  if r.status = .ok then
    if o.instr = .reset then some []
    else
      match words with
      | some ws => some (ws ++ wordsIn o.instr r.data)
      | none => none
  else none

/-- The words of a computation after a run of commands, each with its response: "as many words as it likes" (R232);
none if a command was refused or not answered (R227). -/
def readWords : Option (List (BitVec 32)) → List Offer → List Response → Option (List (BitVec 32))
  | words, [], [] => words
  | words, o :: os, r :: rs => readWords (readOne words o r) os rs
  | _, [], _ :: _ => none
  | _, _ :: _, [] => none

/-- Any number of words joined, "most-significant-first" (43_extract.md R156, R158; R232). -/
def joinNumber (words : List (BitVec 32)) : Nat := words.foldl (fun n w => 2 ^ 32 * n + w.toNat) 0

/-- The four words of a 128-bit digest joined (43_extract.md R156). -/
def joinWords (words : List (BitVec 32)) : Option (BitVec 128) :=
  if words.length = 4 then some (BitVec.ofNat 128 (joinNumber words)) else none

/-- The digest of a run that read four words, if no command was refused (R227). -/
def digestOfRun (os : List Offer) (rs : List Response) : Option (BitVec 128) :=
  match readWords (some []) os rs with
  | some ws => joinWords ws
  | none => none

/-! ## Sequential chaining (R219) -/

/-- `SALT_SCHEDULE` for sequential chaining: from the file length, the salts before absorption, after it, and before the
second, third and fourth word (R213 to R217). -/
structure SaltSchedule where
  pre : Nat → List SaltUse
  post : Nat → List SaltUse
  beforeWord1 : Nat → List SaltUse
  beforeWord2 : Nat → List SaltUse
  beforeWord3 : Nat → List SaltUse

/-- "four `extract32` calls" with the salts of a file length between them (R219). -/
def SaltSchedule.reading (sched : SaltSchedule) (len : Nat) : Reading :=
  .words (sched.beforeWord1 len) (sched.beforeWord2 len) (sched.beforeWord3 len)

/-- All salts of a file length, point by point (R216). -/
def SaltSchedule.saltsAt (sched : SaltSchedule) (len : Nat) : List (List SaltUse) :=
  sched.pre len :: sched.post len :: (sched.reading len).salts

/-- The commands of sequential chaining after the RESET; a fresh instance needs no more (R203, R219). -/
def chainBody (sched : SaltSchedule) (n : Nat) (file : List Byte) : List Offer :=
  saltOffers (sched.pre file.length) ++ (blocksOf n file).map Offer.absorb ++ saltOffers (sched.post file.length) ++
  (sched.reading file.length).offers

/-- The commands of sequential chaining (R219). -/
def chainOffers (sched : SaltSchedule) (n : Nat) (file : List Byte) : List Offer :=
  Offer.plain .reset :: chainBody sched n file

/-- `EMPTY_INPUT_POLICY` (R222). -/
inductive EmptyInputPolicy where
  | error
  | canonical (d0 : BitVec 128)
  deriving DecidableEq, Repr

/-- What the driver ends with. -/
inductive DriverResult where
  | digest (d : BitVec 128)
  | emptyInput
  | failed
  deriving DecidableEq, Repr

/-- The answer to a zero-length file (R192, R222). -/
def EmptyInputPolicy.result : EmptyInputPolicy → DriverResult
  | .error => .emptyInput
  | .canonical d0 => .digest d0

/-- A hexadecimal digit in lower case (R221). -/
def hexDigit (d : BitVec 4) : Char :=
  if d.toNat < 10 then Char.ofNat (0x30 + d.toNat) else Char.ofNat (0x61 + (d.toNat - 10))

/-- "32 lowercase hex digits (two 16-digit halves, each zero-padded, most-significant half first)" (R221). -/
def digestDigits (d : BitVec 128) : List Char := (List.range 32).map fun i => hexDigit (d.extractLsb' (4 * (31 - i)) 4)

/-- The line a successful run prints: digest, tab, path, newline; any other end prints no digest (R221;
60_exceptions.md R191). -/
def DriverResult.outputLine (path : String) : DriverResult → Option String
  | .digest d => some (String.ofList (digestDigits d) ++ "\t" ++ path ++ "\n")
  | .emptyInput => none
  | .failed => none

/-- Sequential chaining of a file on a new instance; there is none with an illegal configuration (R219, R222;
00_scope.md R10). -/
def chainHash (c : Configuration) (sched : SaltSchedule) (policy : EmptyInputPolicy) (file : List Byte) :
    DriverResult :=
  if file = [] then policy.result
  else
    match State.construct c with
    | none => .failed
    | some s0 =>
      match serve (chainOffers sched c.blockSize file) s0 with
      | .next s =>
        match digestOfRun (chainOffers sched c.blockSize file) s.respChan with
        | some d => .digest d
        | none => .failed
      | .fault _ => .failed
      | .refused _ => .failed

/-! ## Independent block XOR-fold (R220) -/

/-- `SALT_SCHEDULE` for the XOR-fold: from the file length, optional salts before the block, salts after it, and the
reading, "EXTRACT128 (or the four EXTRACT32 with salts between)" (R220; 92_eei_decisions.md D29). -/
structure FoldSchedule where
  pre : Nat → List SaltUse
  post : Nat → List SaltUse
  reading : Nat → Reading

/-- All salts of a file length, point by point (R217). -/
def FoldSchedule.saltsAt (sched : FoldSchedule) (len : Nat) : List (List SaltUse) :=
  sched.pre len :: sched.post len :: (sched.reading len).salts

/-- The commands for one block after the RESET; "fresh or reset Engine" (R203, R220). -/
def foldBody (sched : FoldSchedule) (len : Nat) (block : List Byte) : List Offer :=
  saltOffers (sched.pre len) ++ [Offer.absorb block] ++ saltOffers (sched.post len) ++ (sched.reading len).offers

/-- The commands for one block (R220). -/
def foldOffers (sched : FoldSchedule) (len : Nat) (block : List Byte) : List Offer :=
  Offer.plain .reset :: foldBody sched len block

/-- The sub-digests of blocks hashed one after the other on one instance, combined with bitwise XOR (R220; log 15). -/
def foldDigest (sched : FoldSchedule) (len : Nat) : List (List Byte) → State → Option (BitVec 128)
  | [], _ => some 0
  | b :: bs, s =>
    match serve (foldOffers sched len b) s with
    | .next s' =>
      match digestOfRun (foldOffers sched len b) (s'.respChan.drop s.respChan.length), foldDigest sched len bs s' with
      | some d, some rest => some (d ^^^ rest)
      | _, _ => none
    | .fault _ => none
    | .refused _ => none

/-- The XOR-fold of a file on a new instance; there is none with an illegal configuration (R220, R222; 00_scope.md
R10). -/
def foldHash (c : Configuration) (sched : FoldSchedule) (policy : EmptyInputPolicy) (file : List Byte) :
    DriverResult :=
  if file = [] then policy.result
  else
    match State.construct c with
    | none => .failed
    | some s0 =>
      match foldDigest sched file.length (blocksOf c.blockSize file) s0 with
      | some d => .digest d
      | none => .failed

end Sys2Proof.Machine
end

