-- ==== Sys2Proof/Safety.lean ====
section
/-! DEFINITION. The terms claims use: the residue invariant (10_state.md R21) and the invariant between commands
(R34), the verdict of the decoding order written from a word's bits (30_encoding.md R85), the step counts of R23, the
inputs of an ABSORB written from the block's bytes (42_absorb.md R137), and the language of command sequences that
makes a digest a digest (70_reset_and_hazards.md R212). -/

namespace Sys2Proof.Machine

/-! ## Invariants -/

/-- Every lane of R251 is in 0 to 250 and every lane of R241 in 0 to 240 (R21). -/
abbrev Engine.Residues (e : Engine) : Prop := e.r251.Below 251 ∧ e.r241.Below 241

/-- A step function that maps residues to residues, whatever the input word: clause (c) of the contract
(40_register_step.md R100), the one property of `STEPFN` the structure rests on (93_implementation_defined.md U1). -/
def StepFn.KeepsResidues (f : StepFn) : Prop :=
  ∀ (s : Lanes Lane) (w : Word),
    (s.Below 251 → (f .r251 s w).Below 251) ∧ (s.Below 241 → (f .r241 s w).Below 241)

/-- What holds between two commands of an instance of the hardware: residues (R21), an empty block window (R36, R50),
and a configuration the hardware can have (R10). -/
abbrev State.Inv (s : State) : Prop := s.engine.Residues ∧ s.window = [] ∧ s.config.Legal

/-- A step that neither faults nor refuses. -/
def State.Safe (s : State) : Prop := ∃ t, step s = .next t

/-! ## The decoding order, from the bits of the word (R85) -/

/-- The bits R80 reserves, by opcode number: `hi:lo` ranges. -/
def reservedRanges (op : Nat) : List (Nat × Nat) :=
  if op = 2 then [(55, 32)]
  else if op = 3 then []
  else if op = 4 ∨ op = 7 then [(55, 35), (31, 0)]
  else if op = 8 then [(55, 41), (31, 0)]
  else [(55, 0)]

/-- Some bit of a range of bits is one. -/
def anyBitSet (w : CmdWord) (ranges : List (Nat × Nat)) : Bool :=
  ranges.any fun r => (List.range 64).any fun j => decide (r.2 ≤ j ∧ j ≤ r.1) && w.getLsbD j

/-- The salt indices a word carries, by opcode number, in the order `KA`, `KB`, `KC` (R72). -/
def indexFields (op : Nat) (w : CmdWord) : List (BitVec 3) :=
  if op = 4 ∨ op = 7 then [w.extractLsb' 32 3]
  else if op = 8 then [w.extractLsb' 32 3, w.extractLsb' 35 3, w.extractLsb' 38 3]
  else []

/-- The status R85 gives a word with a payload of `len` bytes: the first check that fails, in order. -/
def verdict (c : Configuration) (w : CmdWord) (len : Nat) : Status :=
  let op := (w.extractLsb' 56 8).toNat
  if op = 0 ∨ 9 ≤ op then .illegalOpcode
  else if anyBitSet w (reservedRanges op) then .reservedField
  else if op = 3 ∧ w.extractLsb' 32 24 = 0 then .zeroRounds
  else if (indexFields op w).any (fun k => decide (4 < k.toNat)) then .saltIndex
  else if (op = 7 ∨ op = 8) ∧ (indexFields op w).any (fun k => decide (∃ salt ∈ c.saltTable.entry k, salt.rounds < 24))
    then .saltClass
  else if op = 5 ∧ len ≠ c.blockSize then .blockLength
  else .ok

/-! ## Step counts (R23) -/

/-- The number of pair steps a command takes when it is executed, by the table of R23. -/
def pairStepsOf (c : Configuration) : Instr → Nat
  | .reset => 0
  | .step _ _ => 1
  | .salt rounds _ _ => rounds.toNat
  | .saltk k => ((c.saltTable.entry k).map (·.rounds)).getD 0
  | .absorb => if c.blockSize = 1 then 1 else if c.blockSize = 2 then 2 else c.blockSize / 2 + 4
  | .extract32 => 0
  | .extract64 k => ((c.saltTable.entry k).map (·.rounds)).getD 0
  | .extract128 k1 k2 k3 =>
    ((c.saltTable.entry k1).map (·.rounds)).getD 0 + ((c.saltTable.entry k2).map (·.rounds)).getD 0 +
    ((c.saltTable.entry k3).map (·.rounds)).getD 0

/-! ## The input words of a command (R22, R106) -/

/-- The input pairs of a salt: the noise words on every round (41_salt.md R121). -/
def saltInputs (salt : Salt) : List (Word × Word) := List.replicate salt.rounds (salt.noise0, salt.noise1)

/-- The pairs (input word of R251, input word of R241) a command feeds, in step order; none if it is refused, and none
for RESET, which steps neither Register (40_register_step.md R108). -/
def inputsOf (c : Configuration) (m : Memory) : Instr → List (Word × Word)
  | .reset => []
  | .step w0 w1 => [(w0, w1)]
  | .salt rounds noise0 noise1 => List.replicate rounds.toNat (noise0, noise1)
  | .saltk k =>
    match c.saltTable.entry k with
    | some salt => saltInputs salt
    | none => []
  | .absorb => if m.length = c.blockSize then (absorbInputs c.blockSize m).getD [] else []
  | .extract32 => []
  | .extract64 k =>
    match c.saltTable.entry k with
    | some salt => if 24 ≤ salt.rounds then saltInputs salt else []
    | none => []
  | .extract128 k1 k2 k3 =>
    match c.saltTable.entry k1, c.saltTable.entry k2, c.saltTable.entry k3 with
    | some salt1, some salt2, some salt3 =>
      if 24 ≤ salt1.rounds ∧ 24 ≤ salt2.rounds ∧ 24 ≤ salt3.rounds then
        saltInputs salt1 ++ saltInputs salt2 ++ saltInputs salt3
      else []
    | _, _, _ => []

/-! ## The inputs of an ABSORB, from the bytes of its block (R137) -/

/-- `W(off)`: the little-endian word at an offset of a block (20_memory.md R53). -/
def blockWord (block : List Byte) (off : Nat) : Word :=
  BitVec.ofNat 16 ((block.getD off 0).toNat + 256 * (block.getD (off + 1) 0).toNat)

/-- `dup(block[0]) = 257 · block[0]` (R133). -/
def blockDup (block : List Byte) : Word := BitVec.ofNat 16 (257 * (block.getD 0 0).toNat)

/-- The input words of R251: the words from the front, the word at 1 three times, the duplicated byte (R137). -/
def inputsOfR251 (block : List Byte) : List Word :=
  (List.range (block.length / 2)).map (fun i => blockWord block (2 * i)) ++
  (if 2 < block.length then [blockWord block 1, blockWord block 1, blockWord block 1] else []) ++ [blockDup block]

/-- The input words of R241: the words from the tail, the word at `N - 3` three times, the duplicated byte (R137). -/
def inputsOfR241 (block : List Byte) : List Word :=
  (List.range (block.length / 2)).map (fun i => blockWord block (block.length - 2 - 2 * i)) ++
  (if 2 < block.length then
    [blockWord block (block.length - 3), blockWord block (block.length - 3), blockWord block (block.length - 3)]
   else []) ++ [blockDup block]

/-! ## The host's protocol (R212 to R215, R232, R233) -/

/-- The two strategies of the File Driver (R211). -/
inductive Strategy where
  | chain
  | xorFold
  deriving DecidableEq, Repr

/-- The phases of one computation (R212). After `n` words: `extracting n` if the last command read a word, `shortSalted n`
and `decorrelated n` if salts came after it, without and with one of the long-distance class. -/
inductive Phase where
  | idle
  | reset
  | salted
  | absorbing
  | finalSalted
  | extracting (n : Nat)
  | shortSalted (n : Nat)
  | decorrelated (n : Nat)
  deriving DecidableEq, Repr

/-- `Done`: the fourth word has just been read; the host joins the words and sends nothing more (R212, R233). -/
def Phase.done : Phase := .extracting 4

/-- Where a computation starts: RESET comes first "unless the instance is fresh"; a fresh instance stands where RESET
leaves one (R203; 10_state.md R37; log 22). -/
def Phase.start (fresh : Bool) : Phase := if fresh then .reset else .idle

/-- A salt of `rounds` rounds (R213 to R215). Between words at least one salt is of the long-distance class. -/
def Phase.onSalt (rounds : Nat) : Phase → Option Phase
  | .idle => none
  | .reset => some .salted
  | .salted => some .salted
  | .absorbing => some .finalSalted
  | .finalSalted => some .finalSalted
  | .extracting n => if longMin ≤ rounds then some (.decorrelated n) else some (.shortSalted n)
  | .shortSalted n => if longMin ≤ rounds then some (.decorrelated n) else some (.shortSalted n)
  | .decorrelated n => some (.decorrelated n)

/-- An ABSORB: the pre-salt is required in sequential chaining and optional in the XOR-fold, which absorbs one block a
computation (R213, R219, R220; 90_conflicts.md C3). -/
def Phase.onAbsorb (st : Strategy) : Phase → Option Phase
  | .reset => if st = .xorFold then some .absorbing else none
  | .salted => some .absorbing
  | .absorbing => if st = .chain then some .absorbing else none
  | .idle | .finalSalted | .extracting _ | .shortSalted _ | .decorrelated _ => none

/-- An extraction of `m` words: after the final salt, and after a long-distance salt as often as the host likes (R212,
R215, R232). -/
def Phase.onExtract (m : Nat) : Phase → Option Phase
  | .finalSalted => some (.extracting m)
  | .decorrelated n => some (.extracting (n + m))
  | .idle | .reset | .salted | .absorbing | .extracting _ | .shortSalted _ => none

/-- The phase after a command the protocol allows there: EXTRACT32, EXTRACT64 and EXTRACT128 read words (R212, R232);
RESET restarts the computation at any time (R232). -/
def Phase.after (st : Strategy) (t : SaltTable) (p : Phase) (i : Instr) : Option Phase :=
  match i with
  | .reset => some .reset
  | .step _ _ => none
  | .salt rounds _ _ => if rounds = 0 then none else p.onSalt rounds.toNat
  | .saltk k =>
    match t.entry k with
    | some salt => p.onSalt salt.rounds
    | none => none
  | .absorb => p.onAbsorb st
  | .extract32 => p.onExtract 1
  | .extract64 k =>
    match checkedLong t k with
    | .ok _ => p.onExtract 2
    | .error _ => none
  | .extract128 k1 k2 k3 =>
    match checkedLongs t k1 k2 k3 with
    | .ok _ => p.onExtract 4
    | .error _ => none

/-- The phase after a command of the computation of one digest. `Done` is terminal: the run ends with the command that
reads the last word (R212, R233). Before it, the words are read as the table of R212 says: one by one with EXTRACT32, or
all four with one EXTRACT128 (log 14). -/
def Phase.afterInComputation (st : Strategy) (t : SaltTable) (p : Phase) (i : Instr) : Option Phase :=
  if p = Phase.done then none
  else
    match i with
    | .reset | .step _ _ | .salt _ _ _ | .saltk _ | .absorb | .extract32 => p.after st t i
    | .extract64 _ => none
    | .extract128 _ _ _ => if p = .finalSalted then p.after st t i else none

/-- The phase after a sequence of commands, if `next` allows every one where it stands. -/
def Phase.afterAll (next : Phase → Instr → Option Phase) : List Instr → Phase → Option Phase
  | [], p => some p
  | i :: is, p =>
    match next p i with
    | some p' => Phase.afterAll next is p'
    | none => none

/-- A sequence of commands that reads `words` words by the protocol, "as many words as it likes" (R232), and ends with the
command that reads the last one. -/
def ValidReading (st : Strategy) (t : SaltTable) (fresh : Bool) (words : Nat) (is : List Instr) : Prop :=
  (Phase.start fresh).afterAll (Phase.after st t) is = some (.extracting words)

/-- A sequence of commands is the computation of one 128-bit digest: it ends `Done`, no transition skipped, with the
command that reads the last word (R212, R233). -/
def ValidComputation (st : Strategy) (t : SaltTable) (fresh : Bool) (is : List Instr) : Prop :=
  (Phase.start fresh).afterAll (Phase.afterInComputation st t) is = some Phase.done

/-! ## The duties of a schedule (R213 to R217) -/

/-- The CORE executes every salt of the list (R122, R124). -/
abbrev SaltsExecute (t : SaltTable) (l : List SaltUse) : Prop := ∀ u ∈ l, u.rounds t ≠ none

/-- The list holds a salt of the long-distance class (R215). -/
abbrev HasLongSalt (t : SaltTable) (l : List SaltUse) : Prop := ∃ u ∈ l, ∃ q, u.rounds t = some q ∧ longMin ≤ q

/-- Between any two words stand salts the CORE executes, one of them long-distance (R215); EXTRACT128 has three of them
in one command (60_exceptions.md R178). -/
def Reading.Dutiful (t : SaltTable) : Reading → Prop
  | .composite k1 k2 k3 => ∃ salts, checkedLongs t k1 k2 k3 = .ok salts
  | .words l1 l2 l3 =>
    (SaltsExecute t l1 ∧ SaltsExecute t l2 ∧ SaltsExecute t l3) ∧ HasLongSalt t l1 ∧ HasLongSalt t l2 ∧ HasLongSalt t l3

/-- The duties R213 to R215 put on a schedule for a file of length `len`. -/
def SaltSchedule.Dutiful (sched : SaltSchedule) (t : SaltTable) (len : Nat) : Prop :=
  sched.pre len ≠ [] ∧ sched.post len ≠ [] ∧ SaltsExecute t (sched.pre len) ∧ SaltsExecute t (sched.post len) ∧
  (sched.reading len).Dutiful t

/-- The duties of an XOR-fold schedule for a file of length `len` (R214, R215, R220). -/
def FoldSchedule.Dutiful (sched : FoldSchedule) (t : SaltTable) (len : Nat) : Prop :=
  sched.post len ≠ [] ∧ SaltsExecute t (sched.pre len) ∧ SaltsExecute t (sched.post len) ∧
  (sched.reading len).Dutiful t

/-- The parameters of a salt the host computes and sends with SALT; none for one of the five fixed salts (R217). -/
def SaltUse.parameters : SaltUse → Option (BitVec 24 × Word × Word)
  | .immediate rounds noise0 noise1 => some (rounds, noise0, noise1)
  | .named _ => none

/-- The parameters of the salts sent with SALT, in order (R217). -/
def freeSalts (salts : List (List SaltUse)) : List (BitVec 24 × Word × Word) :=
  salts.flatten.filterMap SaltUse.parameters

/-- "must derive at least one salt parameter from the file length" (R217): at one place of the schedule every length has a
salt sent with SALT, and a file with one more byte has other parameters there. The length is the argument; that "derived"
asks for a change from each length to the next is the model's reading (log 21: DESIGN CHOICE). -/
def LengthDerived (saltsAt : Nat → List (List SaltUse)) : Prop :=
  ∃ (point place : Nat) (parameters : Nat → BitVec 24 × Word × Word), ∀ len,
    (∃ l u, (saltsAt len)[point]? = some l ∧ l[place]? = some u ∧ u.parameters = some (parameters len)) ∧
    parameters len ≠ parameters (len + 1)

/-- What the duty is for, "to avoid trivial collisions between files that differ only in trailing zero padding" (R217): two
lengths that fill the same number of blocks of `n` bytes have other parameters in their SALT commands (log 21). -/
def TellsPaddingApart (saltsAt : Nat → List (List SaltUse)) (n : Nat) : Prop :=
  ∀ a b, 1 ≤ a → 1 ≤ b → a ≠ b → (a + n - 1) / n = (b + n - 1) / n → freeSalts (saltsAt a) ≠ freeSalts (saltsAt b)

/-- The final salts are "chosen from a schedule keyed by file-length parity and `length mod 31`" (R216). The spec does not
say which salts are the final ones: the model holds the salts between the words to the key, "four `extract32` calls (with
salts chosen from a schedule ...)" (R219), and leaves the post-salt, R212's `Salted(final)`, free, since R217 lets it
carry the whole length (log 19: DESIGN CHOICE). -/
def SaltSchedule.KeyedByParityAndResidue (sched : SaltSchedule) : Prop :=
  ∀ a b, a % 2 = b % 2 → a % 31 = b % 31 → sched.reading a = sched.reading b

/-- The index of a named salt; none for a salt with free operands. -/
def SaltUse.index : SaltUse → Option (BitVec 3)
  | .immediate _ _ _ => none
  | .named k => some k

/-- The indices of the named salts between the words, in order (R216). -/
def SaltSchedule.namedBetween (sched : SaltSchedule) (len : Nat) : List (BitVec 3) :=
  (sched.reading len).salts.flatten.filterMap SaltUse.index

/-- "files of even vs. odd byte length must deterministically exercise different named salts in the final extraction
schedule" (R216). The spec does not say what counts as different: the model asks that the sequences of named indices
between the words differ, so the same named salts in another order are different (log 20: DESIGN CHOICE). -/
def SaltSchedule.ParitySeparates (sched : SaltSchedule) : Prop :=
  ∀ a b, a % 2 = 0 → b % 2 = 1 → sched.namedBetween a ≠ sched.namedBetween b

end Sys2Proof.Machine
end

