-- ==== Sys2Proof/Certificates/Slice0/Obligations.lean ====
section
/-! DEFINITION. The statements for the provers. Each docstring names the rule of spec/ it formalises. A statement that
gives a command's result is also its completion statement and its frame: the next state is written out whole, so every
field it does not name is unchanged. -/

open Sys2Proof Sys2Proof.Machine

/-! ## Encoding -/

/-- 30_encoding.md R75 with words of 95_test_vectors.md written out: one word of every row decodes to its command. -/
def Obligations.SpecWordsDecode : Prop :=
  decode 0x0100000000000000#64 = .ok .reset ∧
  decode 0x02000000ABCD1234#64 = .ok (.step 0x1234#16 0xABCD#16) ∧
  decode 0x03000018000B0008#64 = .ok (.salt 24#24 8#16 11#16) ∧
  decode 0x0400000300000000#64 = .ok (.saltk 3#3) ∧
  decode 0x0500000000000000#64 = .ok .absorb ∧
  decode 0x0600000000000000#64 = .ok .extract32 ∧
  decode 0x0700000200000000#64 = .ok (.extract64 2#3) ∧
  decode 0x0800011A00000000#64 = .ok (.extract128 2#3 3#3 4#3)

/-- Decoding an encoded command gives it back, with every operand at every value its field admits (R71 to R75). -/
def Obligations.DecodeOfEncodeIsTheCommand : Prop :=
  ∀ i : Instr, decode (encode i) = .ok i

/-- 60_exceptions.md R174: no two words decode to one command; the only word of a command is its encoding. -/
def Obligations.OnlyTheEncodingDecodesToACommand : Prop :=
  ∀ (w : CmdWord) (i : Instr), decode w = .ok i → w = encode i

/-- R75: "a word `c` selects the row when `c & mask = match`": a word decodes to a command of a row exactly when it
selects the row by the printed mask and match, and no word selects two rows. -/
def Obligations.DecoderAgreesWithMaskAndMatch : Prop :=
  (∀ (w : CmdWord) (m : Mnemonic), (∃ i, decode w = .ok i ∧ i.mnemonic = m) ↔ selectsRow m w = true) ∧
  (∀ (w : CmdWord) (m m' : Mnemonic), selectsRow m w = true → selectsRow m' w = true → m = m')

/-- R79: `OP = 0x00` and `OP = 0x09` to `0xFF` select no command; such a word is refused with ILLEGAL_OPCODE whatever
its other bits are, the all-zero word and the all-ones word among them. -/
def Obligations.IllegalOpcodeWordsAreRefused : Prop :=
  (∀ (s : State) (w : CmdWord) (ws : List CmdWord), s.config.Legal → s.cmdChan = w :: ws →
    ((w.extractLsb' 56 8).toNat = 0 ∨ 9 ≤ (w.extractLsb' 56 8).toNat) →
    decode w = .error .illegalOpcode ∧
    step s = .next { s with cmdChan := ws
                            respChan := s.respChan ++ [{ status := .illegalOpcode, data := 0 }] }) ∧
  decode 0x0000000000000000#64 = .error .illegalOpcode ∧
  decode 0xFFFFFFFFFFFFFFFF#64 = .error .illegalOpcode

/-- R80: a word whose `OP` is 0x01 to 0x08 but which has a one among the bits the command reserves is refused
with RESERVED_FIELD, and only such a word is. That an ABSORB word with a reserved bit always takes one payload with it is
the model's choice (log 6), within 60_exceptions.md R171, "whatever payload came with it, is consumed". -/
def Obligations.ReservedFieldWordsAreRefused : Prop :=
  (∀ (w : CmdWord), decode w = .error .reservedField ↔
    ((w.extractLsb' 56 8 = 1#8 ∨ w.extractLsb' 56 8 = 5#8 ∨ w.extractLsb' 56 8 = 6#8) ∧
        (∃ j, j ≤ 55 ∧ w.getLsbD j = true)) ∨
    (w.extractLsb' 56 8 = 2#8 ∧ (∃ j, 32 ≤ j ∧ j ≤ 55 ∧ w.getLsbD j = true)) ∨
    ((w.extractLsb' 56 8 = 4#8 ∨ w.extractLsb' 56 8 = 7#8) ∧
        (∃ j, (j ≤ 31 ∨ (35 ≤ j ∧ j ≤ 55)) ∧ w.getLsbD j = true)) ∨
    (w.extractLsb' 56 8 = 8#8 ∧ (∃ j, (j ≤ 31 ∨ (41 ≤ j ∧ j ≤ 55)) ∧ w.getLsbD j = true))) ∧
  (∀ (s : State) (w : CmdWord) (ws : List CmdWord), s.config.Legal → s.cmdChan = w :: ws →
    decode w = .error .reservedField →
    (w.extractLsb' 56 8 ≠ 5#8 →
      step s = .next { s with cmdChan := ws
                              respChan := s.respChan ++ [{ status := .reservedField, data := 0 }] }) ∧
    (∀ (b : List Byte) (bs : List (List Byte)), w.extractLsb' 56 8 = 5#8 → s.blockChan = b :: bs →
      step s = .next { s with cmdChan := ws
                              blockChan := bs
                              respChan := s.respChan ++ [{ status := .reservedField, data := 0 }] }))

/-- R78: a word travels as 8 bytes, `cmd[7:0]` first, and a response as its status byte and 16 data bytes,
`data[7:0]` first. The status bytes are the codes 0x00 to 0x06 of 60_exceptions.md R172, and no other byte is one. -/
def Obligations.TransportIsLeastSignificantByteFirst : Prop :=
  (∀ (w : CmdWord), wordOfBytes (bytesOfWord w) = some w ∧ (bytesOfWord w).length = 8 ∧
    ∀ j, j < 8 → (bytesOfWord w)[j]? = some (BitVec.ofNat 8 (w.toNat / 256 ^ j))) ∧
  (∀ (r : Response), (bytesOfResponse r).length = 17 ∧ (bytesOfResponse r)[0]? = some r.status.code ∧
    ∀ j, j < 16 → (bytesOfResponse r)[j + 1]? = some (BitVec.ofNat 8 (r.data.toNat / 256 ^ j))) ∧
  (Status.ok.code = 0x00#8 ∧ Status.illegalOpcode.code = 0x01#8 ∧ Status.reservedField.code = 0x02#8 ∧
    Status.zeroRounds.code = 0x03#8 ∧ Status.saltIndex.code = 0x04#8 ∧ Status.saltClass.code = 0x05#8 ∧
    Status.blockLength.code = 0x06#8) ∧
  (∀ (b : Byte), (∃ st : Status, st.code = b) ↔ b.toNat ≤ 6)

/-- R83: the assembler line of a command stands for that command and, for an ABSORB, its block. -/
def Obligations.AssemblerLineStandsForItsCommand : Prop :=
  ∀ (i : Instr) (block : List Byte),
    (asmOf i block).command = some (i, if i = .absorb then some block else none)

/-! ## The step of a Register -/

/-- 40_register_step.md R102, with the constants written in: the lane table of both Registers. -/
def Obligations.RegisterStepFollowsTheLaneTable : Prop :=
  ∀ (s : Lanes Lane) (w : Word),
    ((stepFn .r251 s w).l0.toNat = (w.toNat + 7 * s.l3.toNat) % 251 ∧
     (stepFn .r251 s w).l1.toNat = (s.l0.toNat + 1 * s.l3.toNat) % 251 ∧
     (stepFn .r251 s w).l2.toNat = (s.l1.toNat + 6 * s.l3.toNat) % 251 ∧
     (stepFn .r251 s w).l3.toNat = (s.l2.toNat + 0 * s.l3.toNat) % 251 ∧
     (stepFn .r251 s w).l4.toNat = (w.toNat + 4 * s.l7.toNat) % 251 ∧
     (stepFn .r251 s w).l5.toNat = (s.l4.toNat + 1 * s.l7.toNat) % 251 ∧
     (stepFn .r251 s w).l6.toNat = (s.l5.toNat + 3 * s.l7.toNat) % 251 ∧
     (stepFn .r251 s w).l7.toNat = (s.l6.toNat + 2 * s.l7.toNat) % 251) ∧
    ((stepFn .r241 s w).l0.toNat = (w.toNat + 13 * s.l3.toNat) % 241 ∧
     (stepFn .r241 s w).l1.toNat = (s.l0.toNat + 2 * s.l3.toNat) % 241 ∧
     (stepFn .r241 s w).l2.toNat = (s.l1.toNat + 5 * s.l3.toNat) % 241 ∧
     (stepFn .r241 s w).l3.toNat = (s.l2.toNat + 10 * s.l3.toNat) % 241 ∧
     (stepFn .r241 s w).l4.toNat = (w.toNat + 7 * s.l7.toNat) % 241 ∧
     (stepFn .r241 s w).l5.toNat = (s.l4.toNat + 0 * s.l7.toNat) % 241 ∧
     (stepFn .r241 s w).l6.toNat = (s.l5.toNat + 10 * s.l7.toNat) % 241 ∧
     (stepFn .r241 s w).l7.toNat = (s.l6.toNat + 1 * s.l7.toNat) % 241)

/-- R104, an inference the spec marks as its own: every lane a step writes lies in 0 to `p - 1`, "whatever `s` and `w`
are". -/
def Obligations.RegisterStepWritesResidues : Prop :=
  ∀ (s : Lanes Lane) (w : Word), (stepFn .r251 s w).Below 251 ∧ (stepFn .r241 s w).Below 241

/-- R103, last sentence: "an input word counts only through its residue". -/
def Obligations.InputWordCountsThroughItsResidue : Prop :=
  ∀ (s : Lanes Lane) (w w' : Word),
    (w.toNat % 251 = w'.toNat % 251 → stepFn .r251 s w = stepFn .r251 s w') ∧
    (w.toNat % 241 = w'.toNat % 241 → stepFn .r241 s w = stepFn .r241 s w')

/-- 93_implementation_defined.md U2: the 16-bit wrapping adder agrees with exact arithmetic for every input word up to
62415; where the sum of lane 0 or 4 reaches 65536 it gives the exact result minus 25 modulo 251, minus 225 modulo 241.
-/
def Obligations.WrappingAdderDiffersOnlyAboveTheBound : Prop :=
  (∀ (s : Lanes Lane) (w : Word), w.toNat ≤ 62415 →
    (s.Below 251 → stepFnOf .wrap16 .r251 s w = stepFnOf .exact .r251 s w) ∧
    (s.Below 241 → stepFnOf .wrap16 .r241 s w = stepFnOf .exact .r241 s w)) ∧
  (∀ (s : Lanes Lane) (w : Word), s.Below 251 →
    (65536 ≤ w.toNat + s.l3.toNat * 7 →
      ((stepFnOf .wrap16 .r251 s w).l0.toNat + 25) % 251 = (stepFnOf .exact .r251 s w).l0.toNat) ∧
    (65536 ≤ w.toNat + s.l7.toNat * 4 →
      ((stepFnOf .wrap16 .r251 s w).l4.toNat + 25) % 251 = (stepFnOf .exact .r251 s w).l4.toNat)) ∧
  (∀ (s : Lanes Lane) (w : Word), s.Below 241 →
    (65536 ≤ w.toNat + s.l3.toNat * 13 →
      ((stepFnOf .wrap16 .r241 s w).l0.toNat + 225) % 241 = (stepFnOf .exact .r241 s w).l0.toNat) ∧
    (65536 ≤ w.toNat + s.l7.toNat * 7 →
      ((stepFnOf .wrap16 .r241 s w).l4.toNat + 225) % 241 = (stepFnOf .exact .r241 s w).l4.toNat))

/-- U1: what the structure rests on is clause (c) of the step's contract alone: for every step function that maps
residues to residues, pair steps and salts keep them. -/
def Obligations.ResiduesAreKeptUnderEveryStepFunction : Prop :=
  ∀ (f : StepFn), f.KeepsResidues → ∀ (e : Engine), e.Residues →
    (∀ (inputs : List (Word × Word)), (e.feed f inputs).Residues) ∧
    (∀ (q : Nat) (n0 n1 : Word), (e.saltRounds f q n0 n1).Residues)

/-! ## RESET and STEP -/

/-- 10_state.md R35, R36: construction and RESET give both Registers the unit seed (1,0,0,0,1,0,0,0) and leave the
configuration and constants as they are; after construction the block window holds nothing. Every legal configuration has
its instance (00_scope.md R10). RESET completes in every state and changes nothing else. -/
def Obligations.ConstructionAndResetGiveTheUnitSeed : Prop :=
  (∀ (c : Configuration), c.Legal → ∃ s, State.construct c = some s ∧
    s.engine =
      { r251 := { l0 := 1, l1 := 0, l2 := 0, l3 := 0, l4 := 1, l5 := 0, l6 := 0, l7 := 0 }
        r241 := { l0 := 1, l1 := 0, l2 := 0, l3 := 0, l4 := 1, l5 := 0, l6 := 0, l7 := 0 } } ∧
    s.config = c ∧ s.window = []) ∧
  (∀ (s : State), exec .reset s =
    .next { s with engine := { r251 := { l0 := 1, l1 := 0, l2 := 0, l3 := 0, l4 := 1, l5 := 0, l6 := 0, l7 := 0 }
                               r241 := { l0 := 1, l1 := 0, l2 := 0, l3 := 0, l4 := 1, l5 := 0, l6 := 0, l7 := 0 } }
                   respChan := s.respChan ++ [{ status := .ok, data := 0 }] }) ∧
  Reg.r251.modulus = 251 ∧ Reg.r241.modulus = 241 ∧
  Reg.r251.constant = { l0 := 7, l1 := 1, l2 := 6, l3 := 0, l4 := 4, l5 := 1, l6 := 3, l7 := 2 } ∧
  Reg.r241.constant = { l0 := 13, l1 := 2, l2 := 5, l3 := 10, l4 := 7, l5 := 0, l6 := 10, l7 := 1 }

/-- R110 with R102: STEP completes in every state for every pair of words, steps each Register once with its own word by
the lane table, answers OK, and changes nothing else. -/
def Obligations.StepCommandStepsBothRegisters : Prop :=
  ∀ (s : State) (w0 w1 : Word), ∃ (a b : Lanes Lane),
    exec (.step w0 w1) s =
      .next { s with engine := { r251 := a, r241 := b }
                     respChan := s.respChan ++ [{ status := .ok, data := 0 }] } ∧
    (a.l0.toNat = (w0.toNat + 7 * s.engine.r251.l3.toNat) % 251 ∧
     a.l1.toNat = (s.engine.r251.l0.toNat + 1 * s.engine.r251.l3.toNat) % 251 ∧
     a.l2.toNat = (s.engine.r251.l1.toNat + 6 * s.engine.r251.l3.toNat) % 251 ∧
     a.l3.toNat = s.engine.r251.l2.toNat % 251 ∧
     a.l4.toNat = (w0.toNat + 4 * s.engine.r251.l7.toNat) % 251 ∧
     a.l5.toNat = (s.engine.r251.l4.toNat + 1 * s.engine.r251.l7.toNat) % 251 ∧
     a.l6.toNat = (s.engine.r251.l5.toNat + 3 * s.engine.r251.l7.toNat) % 251 ∧
     a.l7.toNat = (s.engine.r251.l6.toNat + 2 * s.engine.r251.l7.toNat) % 251) ∧
    (b.l0.toNat = (w1.toNat + 13 * s.engine.r241.l3.toNat) % 241 ∧
     b.l1.toNat = (s.engine.r241.l0.toNat + 2 * s.engine.r241.l3.toNat) % 241 ∧
     b.l2.toNat = (s.engine.r241.l1.toNat + 5 * s.engine.r241.l3.toNat) % 241 ∧
     b.l3.toNat = (s.engine.r241.l2.toNat + 10 * s.engine.r241.l3.toNat) % 241 ∧
     b.l4.toNat = (w1.toNat + 7 * s.engine.r241.l7.toNat) % 241 ∧
     b.l5.toNat = s.engine.r241.l4.toNat % 241 ∧
     b.l6.toNat = (s.engine.r241.l5.toNat + 10 * s.engine.r241.l7.toNat) % 241 ∧
     b.l7.toNat = (s.engine.r241.l6.toNat + 1 * s.engine.r241.l7.toNat) % 241)

/-! ## SALT and SALTK -/

/-- 41_salt.md R121, R123: SALT of one round or more completes in every state; R251 is stepped `rounds` times with
`noise0` on every round and R241 `rounds` times with `noise1`; and `q` pair steps are `q` steps of R251 followed by `q`
steps of R241, in either order. -/
def Obligations.SaltCommandStepsEachRegisterRoundsTimes : Prop :=
  (∀ (s : State) (rounds : BitVec 24) (n0 n1 : Word), rounds ≠ 0 →
    exec (.salt rounds n0 n1) s =
      .next { s with engine := { r251 := (fun r => stepFn .r251 r n0)^[rounds.toNat] s.engine.r251
                                 r241 := (fun r => stepFn .r241 r n1)^[rounds.toNat] s.engine.r241 }
                     respChan := s.respChan ++ [{ status := .ok, data := 0 }] }) ∧
  (∀ (e : Engine) (q : Nat) (n0 n1 : Word),
    (fun e => Engine.pairStep stepFn n0 n1 e)^[q] e =
      { r251 := (fun r => stepFn .r251 r n0)^[q] e.r251, r241 := (fun r => stepFn .r241 r n1)^[q] e.r241 })

/-- 60_exceptions.md R175: a salt of zero rounds is not executed as a no-operation; the command is refused with
ZERO_ROUNDS and nothing but the response channel changes. -/
def Obligations.ZeroRoundsIsRefused : Prop :=
  ∀ (s : State) (n0 n1 : Word),
    exec (.salt 0 n0 n1) s =
      .next { s with respChan := s.respChan ++ [{ status := .zeroRounds, data := 0 }] }

/-- R126, an inference the spec marks as its own: salts of the same noise words add, as operations and as SALT
commands; salts of different noise words do not commute in general; the rule's example. -/
def Obligations.SaltsOfEqualNoiseAdd : Prop :=
  (∀ (e : Engine) (a b : Nat) (n0 n1 : Word),
    (e.saltRounds stepFn a n0 n1).saltRounds stepFn b n0 n1 = e.saltRounds stepFn (a + b) n0 n1) ∧
  (∀ (s : State) (a b : BitVec 24) (n0 n1 : Word), a ≠ 0 → b ≠ 0 → a.toNat + b.toNat ≤ roundsMax →
    ∃ t u v, exec (.salt a n0 n1) s = .next t ∧ exec (.salt b n0 n1) t = .next u ∧
      exec (.salt (a + b) n0 n1) s = .next v ∧ u.engine = v.engine) ∧
  (∃ (e : Engine) (a b : Nat) (n0 n1 m0 m1 : Word),
    (e.saltRounds stepFn a n0 n1).saltRounds stepFn b m0 m1 ≠
    (e.saltRounds stepFn b m0 m1).saltRounds stepFn a n0 n1) ∧
  ((Engine.seed.saltRounds stepFn 3 2 3).saltRounds stepFn 4 2 3).r251 =
    { l0 := 107, l1 := 73, l2 := 114, l3 := 59, l4 := 166, l5 := 95, l6 := 154, l7 := 131 }

/-- R127, an inference the spec marks as its own: SALT 1, n0, n1 has the same effect as STEP n0, n1; the rule's
example. -/
def Obligations.SaltOfOneRoundIsStep : Prop :=
  (∀ (s : State) (n0 n1 : Word), exec (.salt 1 n0 n1) s = exec (.step n0 n1) s) ∧
  Engine.seed.saltRounds stepFn 1 2 3 =
    { r251 := { l0 := 2, l1 := 1, l2 := 0, l3 := 0, l4 := 2, l5 := 1, l6 := 0, l7 := 0 }
      r241 := { l0 := 3, l1 := 1, l2 := 0, l3 := 0, l4 := 3, l5 := 1, l6 := 0, l7 := 0 } }

/-- R128, an inference the spec marks as its own: noise words count only through their residues; the rule's example;
and the law fails for an implementation that wraps at 16 bits. -/
def Obligations.NoiseWordsCountThroughTheirResidues : Prop :=
  (∀ (s : State) (q : BitVec 24) (n0 n1 : Word), n0.toNat + 251 ≤ 65535 → n1.toNat + 241 ≤ 65535 →
    exec (.salt q (n0 + 251#16) (n1 + 241#16)) s = exec (.salt q n0 n1) s) ∧
  Engine.seed.saltRounds stepFn 4 253 244 = Engine.seed.saltRounds stepFn 4 2 3 ∧
  (∃ (e : Engine) (q : Nat) (n0 n1 : Word), e.Residues ∧ n0.toNat + 251 ≤ 65535 ∧ n1.toNat + 241 ≤ 65535 ∧
    e.saltRounds (stepFnOf .wrap16) q (n0 + 251#16) (n1 + 241#16) ≠ e.saltRounds (stepFnOf .wrap16) q n0 n1)

/-- R124 and 10_state.md R26: on an instance with a legal table, SALTK of an index 0 to 4 completes, applies the named
salt, and equals SALT with the three fields of the entry as operands. -/
def Obligations.NamedSaltIsSaltOfItsEntry : Prop :=
  (∀ (t : SaltTable), t.entry 0 = some t.s0 ∧ t.entry 1 = some t.s1 ∧ t.entry 2 = some t.s2 ∧
    t.entry 3 = some t.s3 ∧ t.entry 4 = some t.s4) ∧
  (∀ (s : State) (k : BitVec 3), s.config.saltTable.Legal → k.toNat ≤ 4 →
    ∃ salt, s.config.saltTable.entry k = some salt ∧
      exec (.saltk k) s =
        .next { s with engine := s.engine.saltRounds stepFn salt.rounds salt.noise0 salt.noise1
                       respChan := s.respChan ++ [{ status := .ok, data := 0 }] } ∧
      exec (.saltk k) s = exec (.salt (BitVec.ofNat 24 salt.rounds) salt.noise0 salt.noise1) s)

/-- 60_exceptions.md R176: an index 5, 6 or 7 names no salt; SALTK, EXTRACT64 and EXTRACT128 with one in any place are
refused with SALT_INDEX, whatever the classes of the other salts (R179), and nothing but the response channel changes.
-/
def Obligations.IndicesThatNameNoSaltAreRefused : Prop :=
  ∀ (s : State) (k k1 k2 k3 : BitVec 3),
    (4 < k.toNat →
      exec (.saltk k) s = .next { s with respChan := s.respChan ++ [{ status := .saltIndex, data := 0 }] } ∧
      exec (.extract64 k) s = .next { s with respChan := s.respChan ++ [{ status := .saltIndex, data := 0 }] }) ∧
    (4 < k1.toNat ∨ 4 < k2.toNat ∨ 4 < k3.toNat →
      exec (.extract128 k1 k2 k3) s =
        .next { s with respChan := s.respChan ++ [{ status := .saltIndex, data := 0 }] })

/-! ## ABSORB and the block window -/

/-- 20_memory.md R52, R53: in the window of a block a byte read gives the byte at the offset, a word read gives the
byte at the lower offset as the low byte. That a read of an offset that does not exist gives no value is the model's
choice (log 8), from R54, an inference the spec marks as its own: "no other offset exists". -/
def Obligations.BlockReadsAreLittleEndian : Prop :=
  ∀ (block : List Byte) (off : Nat),
    (∀ b, block[off]? = some b → (Memory.ofPayload block).readByte off = some b) ∧
    (block.length ≤ off → (Memory.ofPayload block).readByte off = none) ∧
    (∀ lo hi, block[off]? = some lo → block[off + 1]? = some hi →
      ∃ w, (Memory.ofPayload block).readWord off = some w ∧ w.toNat = lo.toNat + 256 * hi.toNat) ∧
    (block.length ≤ off + 1 → (Memory.ofPayload block).readWord off = none)

/-- The block window keeps its canonical form: every window that opens has it, and every step keeps it (log 8). -/
def Obligations.BlockWindowStaysCanonical : Prop :=
  (∀ (block : List Byte), (Memory.ofPayload block).wf) ∧
  (∀ (s t : State), s.window.wf → step s = .next t → t.window.wf)

/-- 42_absorb.md R131 to R135: with a block of `N` bytes in the window, `N` legal, ABSORB completes; each Register is
stepped with its input words in order, the duplicated first byte last; the window ends with the command; nothing else
changes. -/
def Obligations.AbsorbFeedsTheBlockFromBothEnds : Prop :=
  ∀ (s : State) (block : List Byte), BlockSizeLegal s.config.blockSize → block.length = s.config.blockSize →
    s.window = Memory.ofPayload block →
    exec .absorb s =
      .next { s with engine := { r251 := (inputsOfR251 block).foldl (stepFn .r251) s.engine.r251
                                 r241 := (inputsOfR241 block).foldl (stepFn .r241) s.engine.r241 }
                     window := []
                     respChan := s.respChan ++ [{ status := .ok, data := 0 }] }

/-- R137, an inference the spec marks as its own: ABSORB has the same effect on the lanes as a fixed sequence of STEP
commands whose operands are read from the block. -/
def Obligations.AbsorbEqualsASequenceOfSteps : Prop :=
  ∀ (s : State) (block : List Byte), BlockSizeLegal s.config.blockSize → block.length = s.config.blockSize →
    ∃ t u, serve [Offer.absorb block] s = .next t ∧
      serve (((inputsOfR251 block).zip (inputsOfR241 block)).map fun w => Offer.plain (.step w.1 w.2)) s = .next u ∧
      t.engine = u.engine

/-- R139, an inference the spec marks as its own: every offset of an ABSORB lies inside the block, and ABSORB over a
window of `N` bytes never reads outside. -/
def Obligations.AbsorbNeverReadsOutsideTheWindow : Prop :=
  (∀ (n i : Nat), n % 2 = 0 → 2 ≤ n → i ≤ n / 2 - 1 →
    2 * i + 1 ≤ n - 1 ∧ 2 + 2 * i ≤ n ∧ n - 2 - 2 * i ≤ n - 2 ∧ 1 ≤ n - 1 - 2 * i ∧ n - 1 - 2 * i ≤ n - 1) ∧
  (∀ (n : Nat), n % 2 = 0 → 4 ≤ n → 1 ≤ n - 1 ∧ 2 ≤ n - 1 ∧ 1 ≤ n - 3 ∧ n - 2 ≤ n - 1) ∧
  (∀ (s : State) (block : List Byte) (r : Fault), BlockSizeLegal s.config.blockSize →
    block.length = s.config.blockSize → s.window = Memory.ofPayload block → exec .absorb s ≠ .fault r)

/-- R131, R132: the `i`-th input word of R251 is the little-endian word at `2i`, the `i`-th input word of R241 is the
word at `N - 2 - 2i`, so R241 is fed the main-pass words of R251 in the opposite order. -/
def Obligations.MainPassIsMirrored : Prop :=
  ∀ (block : List Byte), BlockSizeLegal block.length →
    ∃ inputs, absorbInputs block.length (Memory.ofPayload block) = some inputs ∧
      ∀ i, i < block.length / 2 → ∃ f0 f1 g0,
        inputs[i]? = some (f0, f1) ∧
        (Memory.ofPayload block).readWord (2 * i) = some f0 ∧
        (Memory.ofPayload block).readWord (block.length - 2 - 2 * i) = some f1 ∧
        inputs[block.length / 2 - 1 - i]? = some (f1, g0)

/-- R177: a payload of another length is not a block of the instance: refused with BLOCK_LENGTH, not padded and not cut;
no lane changes and the payload is discarded. -/
def Obligations.BlocksOfAnotherLengthAreRefused : Prop :=
  ∀ (s : State) (payload : List Byte), payload.length ≠ s.config.blockSize →
    exec .absorb (s.openWindow (some payload)) =
      .next { s with window := []
                     respChan := s.respChan ++ [{ status := .blockLength, data := 0 }] }

/-! ## Extraction -/

/-- 43_extract.md R152 with R153: EXTRACT32 completes in every state, writes nothing, and returns the four digest
bytes, group {0,4} most significant (decision D14, log 3); so two in a row return the same word (R160, an inference
the spec marks as its own). -/
def Obligations.ExtractWordIsAPureRead : Prop :=
  ∀ (s : State), ∃ (d : BitVec 128),
    exec .extract32 s = .next { s with respChan := s.respChan ++ [{ status := .ok, data := d }] } ∧
    serve [Offer.plain .extract32, Offer.plain .extract32] s =
      .next { s with respChan := s.respChan ++ [{ status := .ok, data := d }, { status := .ok, data := d }] } ∧
    d.toNat =
      16777216 * ((s.engine.r251.l0 ^^^ s.engine.r251.l4 ^^^ s.engine.r241.l0 ^^^ s.engine.r241.l4).toNat % 256) +
      65536 * ((s.engine.r251.l1 ^^^ s.engine.r251.l5 ^^^ s.engine.r241.l1 ^^^ s.engine.r241.l5).toNat % 256) +
      256 * ((s.engine.r251.l2 ^^^ s.engine.r251.l6 ^^^ s.engine.r241.l2 ^^^ s.engine.r241.l6).toNat % 256) +
      (s.engine.r251.l3 ^^^ s.engine.r251.l7 ^^^ s.engine.r241.l3 ^^^ s.engine.r241.l7).toNat % 256

/-- R151, an inference the spec marks as its own: the `[7:0]` of the fold cuts nothing off a Register that holds
residues, and a fold byte can be any value 0 to 255, values of `p` or more among them. -/
def Obligations.FoldCutsNothingOff : Prop :=
  (∀ (s : Lanes Lane) (p : Nat), p ≤ 251 → s.Below p →
    (foldByte s.l0 s.l4).toNat = (s.l0 ^^^ s.l4).toNat ∧ (foldByte s.l1 s.l5).toNat = (s.l1 ^^^ s.l5).toNat ∧
    (foldByte s.l2 s.l6).toNat = (s.l2 ^^^ s.l6).toNat ∧ (foldByte s.l3 s.l7).toNat = (s.l3 ^^^ s.l7).toNat) ∧
  (∀ (b : Byte), ∃ (x y : Lane), x.toNat < 241 ∧ y.toNat < 241 ∧ foldByte x y = b) ∧
  foldByte 250 5 = 255

/-- R155: with a named long-distance salt EXTRACT64 completes in every state, returns the word before the salt as the
high word and the word after it as the low word, leaves the Registers after the salt, and changes nothing else. -/
def Obligations.ExtractTwoWordsAroundASalt : Prop :=
  ∀ (s : State) (k : BitVec 3) (salt : Salt), s.config.saltTable.entry k = some salt → 24 ≤ salt.rounds →
    ∃ (d : BitVec 128),
      exec (.extract64 k) s =
        .next { s with engine := s.engine.saltRounds stepFn salt.rounds salt.noise0 salt.noise1
                       respChan := s.respChan ++ [{ status := .ok, data := d }] } ∧
      d.toNat = 4294967296 * s.engine.x32.toNat +
        (s.engine.saltRounds stepFn salt.rounds salt.noise0 salt.noise1).x32.toNat

/-- R156, R157: with three named long-distance salts EXTRACT128 completes in every state and returns four words, first
word highest, with one salt between each two. -/
def Obligations.ExtractFourWordsAroundThreeSalts : Prop :=
  ∀ (s : State) (k1 k2 k3 : BitVec 3) (a b c : Salt),
    s.config.saltTable.entry k1 = some a → s.config.saltTable.entry k2 = some b →
    s.config.saltTable.entry k3 = some c → 24 ≤ a.rounds → 24 ≤ b.rounds → 24 ≤ c.rounds →
    ∃ (e1 e2 e3 : Engine) (d : BitVec 128),
      e1 = s.engine.saltRounds stepFn a.rounds a.noise0 a.noise1 ∧
      e2 = e1.saltRounds stepFn b.rounds b.noise0 b.noise1 ∧
      e3 = e2.saltRounds stepFn c.rounds c.noise0 c.noise1 ∧
      exec (.extract128 k1 k2 k3) s =
        .next { s with engine := e3
                       respChan := s.respChan ++ [{ status := .ok, data := d }] } ∧
      d.toNat = 2 ^ 96 * s.engine.x32.toNat + 2 ^ 64 * e1.x32.toNat + 2 ^ 32 * e2.x32.toNat + e3.x32.toNat

/-- 60_exceptions.md R178: EXTRACT64 and EXTRACT128 with a named salt of fewer than 24 rounds are refused with
SALT_CLASS before any lane is written, and no other command is. -/
def Obligations.ShortSaltsAreRefusedBetweenWords : Prop :=
  (∀ (s : State) (k : BitVec 3) (salt : Salt), s.config.saltTable.entry k = some salt → salt.rounds < 24 →
    exec (.extract64 k) s = .next { s with respChan := s.respChan ++ [{ status := .saltClass, data := 0 }] }) ∧
  (∀ (s : State) (k1 k2 k3 : BitVec 3) (a b c : Salt),
    s.config.saltTable.entry k1 = some a → s.config.saltTable.entry k2 = some b →
    s.config.saltTable.entry k3 = some c → (a.rounds < 24 ∨ b.rounds < 24 ∨ c.rounds < 24) →
    exec (.extract128 k1 k2 k3) s = .next { s with respChan := s.respChan ++ [{ status := .saltClass, data := 0 }] }) ∧
  (∀ (i : Instr) (s t : State) (d : BitVec 128), exec i s = .next t →
    t.respChan = s.respChan ++ [{ status := .saltClass, data := d }] →
    i.mnemonic = .extract64 ∨ i.mnemonic = .extract128)

/-- R159, an inference the spec marks as its own: EXTRACT64 and EXTRACT128 return the same words and leave the same
state as the sequences of EXTRACT32 and SALTK, provided every index is legal and every salt long-distance; the
sequence does not check the class. -/
def Obligations.CompositeExtractionsEqualTheirSequences : Prop :=
  (∀ (s : State) (k : BitVec 3) (salt : Salt), s.config.saltTable.entry k = some salt →
    ∃ u w0 w1,
      serve [Offer.plain .extract32, Offer.plain (.saltk k), Offer.plain .extract32] s = .next u ∧
      u.respChan = s.respChan ++ [{ status := .ok, data := BitVec.setWidth 128 (w0 : BitVec 32) },
        { status := .ok, data := 0 }, { status := .ok, data := BitVec.setWidth 128 (w1 : BitVec 32) }] ∧
      (24 ≤ salt.rounds → exec (.extract64 k) s =
        .next { s with engine := u.engine
                       respChan := s.respChan ++ [{ status := .ok, data := BitVec.setWidth 128 (w0 ++ w1) }] })) ∧
  (∀ (s : State) (k1 k2 k3 : BitVec 3) (a b c : Salt),
    s.config.saltTable.entry k1 = some a → s.config.saltTable.entry k2 = some b →
    s.config.saltTable.entry k3 = some c →
    ∃ u w0 w1 w2 w3,
      serve [Offer.plain .extract32, Offer.plain (.saltk k1), Offer.plain .extract32, Offer.plain (.saltk k2),
        Offer.plain .extract32, Offer.plain (.saltk k3), Offer.plain .extract32] s = .next u ∧
      u.respChan = s.respChan ++ [{ status := .ok, data := BitVec.setWidth 128 (w0 : BitVec 32) },
        { status := .ok, data := 0 }, { status := .ok, data := BitVec.setWidth 128 (w1 : BitVec 32) },
        { status := .ok, data := 0 }, { status := .ok, data := BitVec.setWidth 128 (w2 : BitVec 32) },
        { status := .ok, data := 0 }, { status := .ok, data := BitVec.setWidth 128 (w3 : BitVec 32) }] ∧
      (24 ≤ a.rounds → 24 ≤ b.rounds → 24 ≤ c.rounds → exec (.extract128 k1 k2 k3) s =
        .next { s with engine := u.engine
                       respChan := s.respChan ++ [{ status := .ok, data := w0 ++ w1 ++ w2 ++ w3 }] }))

/-- R161, 70_reset_and_hazards.md R224, inferences the spec marks as its own: the digest word is 0 exactly when the
four fold bytes of the two Registers agree, so when lanes `g` and `g + 4` agree in each, so after at most three pair
steps from the unit seed, whatever the inputs. Rests on the spec's decisions D1 and D3 (log 3). -/
def Obligations.DigestWordIsZeroUntilTheFourthStep : Prop :=
  (∀ (e : Engine), (e.x32 = 0 ↔
    foldByte e.r251.l0 e.r251.l4 = foldByte e.r241.l0 e.r241.l4 ∧
    foldByte e.r251.l1 e.r251.l5 = foldByte e.r241.l1 e.r241.l5 ∧
    foldByte e.r251.l2 e.r251.l6 = foldByte e.r241.l2 e.r241.l6 ∧
    foldByte e.r251.l3 e.r251.l7 = foldByte e.r241.l3 e.r241.l7)) ∧
  (∀ (e : Engine), (∀ r ∈ [e.r251, e.r241], r.l0 = r.l4 ∧ r.l1 = r.l5 ∧ r.l2 = r.l6 ∧ r.l3 = r.l7) → e.x32 = 0) ∧
  (∀ (inputs : List (Word × Word)), inputs.length ≤ 3 → (Engine.seed.feed stepFn inputs).x32 = 0) ∧
  (Engine.seed.feed stepFn [(0, 0), (0, 0), (0, 0), (0, 0)]).x32 = 0x09020A09#32

/-! ## Whole-machine rules -/

/-- 40_register_step.md R106: a pair step steps R251 with its word and R241 with its own; every state change of the CORE
other than RESET is the sequence of pair steps with the command's own input words: STEP its two words, SALT and SALTK the
noise words on every round, ABSORB the words it reads, EXTRACT64 and EXTRACT128 those of their salts, EXTRACT32 and a
refused command none. -/
def Obligations.EveryStateChangeIsASequenceOfPairSteps : Prop :=
  (∀ (e : Engine) (w0 w1 : Word),
    e.pairStep stepFn w0 w1 = { r251 := stepFn .r251 e.r251 w0, r241 := stepFn .r241 e.r241 w1 }) ∧
  (∀ (i : Instr) (s t : State), i ≠ .reset → exec i s = .next t →
    t.engine = (inputsOf s.config s.window i).foldl (fun e w => e.pairStep stepFn w.1 w.2) s.engine)

/-- 10_state.md R23, an inference the spec marks as its own: a command that is executed steps R251 with the first and R241
with the second words of its input pairs, so both the same number of times, the number the table of R23 gives; RESET
steps neither. A refused command steps neither. -/
def Obligations.RegistersAdvanceInLockstep : Prop :=
  ∀ (i : Instr) (s t : State) (st : Status) (d : BitVec 128), BlockSizeLegal s.config.blockSize → exec i s = .next t →
    t.respChan = s.respChan ++ [{ status := st, data := d }] →
    (i = .reset → t.engine = Engine.seed) ∧
    (st = .ok → (inputsOf s.config s.window i).length = pairStepsOf s.config i) ∧
    (st = .ok → i ≠ .reset →
      t.engine.r251 = ((inputsOf s.config s.window i).map fun w => w.1).foldl (stepFn .r251) s.engine.r251 ∧
      t.engine.r241 = ((inputsOf s.config s.window i).map fun w => w.2).foldl (stepFn .r241) s.engine.r241) ∧
    (st ≠ .ok → t.engine = s.engine)

/-- 20_memory.md R65: no step of one Register reads the other: what a command leaves in R251 depends on R251 alone of
the lanes, and what it leaves in R241 on R241 alone. -/
def Obligations.RegistersNeverReadEachOther : Prop :=
  ∀ (i : Instr) (s s' t t' : State), s.config = s'.config → s.window = s'.window →
    exec i s = .next t → exec i s' = .next t' →
    (s.engine.r251 = s'.engine.r251 → t.engine.r251 = t'.engine.r251) ∧
    (s.engine.r241 = s'.engine.r241 → t.engine.r241 = t'.engine.r241)

/-- 10_state.md R31: a command's result depends on nothing but the 16 lanes, the configuration and the command's own
operands (its word and its block): two states that agree on these give the same lanes and the same response. -/
def Obligations.ResultsDependOnLanesConfigurationAndOperands : Prop :=
  ∀ (i : Instr) (s s' t : State), s.engine = s'.engine → s.config = s'.config → s.window = s'.window →
    exec i s = .next t →
    ∃ t' r, exec i s' = .next t' ∧ t'.engine = t.engine ∧
      t.respChan = s.respChan ++ [r] ∧ t'.respChan = s'.respChan ++ [r]

/-- The frame of every command (R22, R24, R28, R51): no command writes the configuration, an input channel or a byte of
the window; each adds one response; an ABSORB's window ends with it (R50). -/
def Obligations.CommandsChangeOnlyLanesAndResponses : Prop :=
  ∀ (i : Instr) (s t : State), exec i s = .next t →
    t.config = s.config ∧ t.cmdChan = s.cmdChan ∧ t.blockChan = s.blockChan ∧
    (∃ r, t.respChan = s.respChan ++ [r]) ∧
    (i ≠ .absorb → ∀ off, t.window.readByte off = s.window.readByte off) ∧
    (i = .absorb → t.window = []) ∧
    (i = .extract32 → t.engine = s.engine)

/-- A step of a legal instance runs the command its next word decodes to, with the word off the command channel and, for
an ABSORB, its block off the block channel and in the window (30_encoding.md R70, R76). -/
def Obligations.StepRunsTheDecodedCommand : Prop :=
  ∀ (s : State) (w : CmdWord) (ws : List CmdWord) (i : Instr), s.config.Legal → s.cmdChan = w :: ws →
    decode w = .ok i →
    (i ≠ .absorb → step s = exec i { s with cmdChan := ws }) ∧
    (∀ (b : List Byte) (bs : List (List Byte)), i = .absorb → s.blockChan = b :: bs →
      step s = exec .absorb { s with cmdChan := ws, blockChan := bs, window := Memory.ofPayload b })

/-- The model's choice (logs 5 and 6), from 70_reset_and_hazards.md R202 and R228: with no command word, or an ABSORB
word whose payload has not come, the CORE waits and nothing changes. -/
def Obligations.CoreWaitsForItsCommand : Prop :=
  ∀ (s : State), s.config.Legal →
    (s.cmdChan = [] → step s = .next s) ∧
    (∀ (w : CmdWord) (ws : List CmdWord), s.cmdChan = w :: ws → w.extractLsb' 56 8 = 5#8 → s.blockChan = [] →
      step s = .next s)

/-- 60_exceptions.md R171: whatever the reason, a refused command changes no lane, its response carries its code
and data 0, its word and the payload that came with it are consumed, and the state is otherwise as if it had not been
sent. That exactly one payload comes with every word of OP 0x05 is the model's choice (log 6). -/
def Obligations.RefusedCommandsChangeNothing : Prop :=
  ∀ (s t : State) (st : Status) (d : BitVec 128), s.window = [] → step s = .next t →
    t.respChan = s.respChan ++ [{ status := st, data := d }] → st ≠ .ok →
    d = 0 ∧ ∃ w ws, s.cmdChan = w :: ws ∧
      ((w.extractLsb' 56 8 ≠ 5#8 ∧ t = { s with cmdChan := ws, respChan := t.respChan }) ∨
       (w.extractLsb' 56 8 = 5#8 ∧ ∃ b bs, s.blockChan = b :: bs ∧
         t = { s with cmdChan := ws, blockChan := bs, respChan := t.respChan }))

/-- 30_encoding.md R77: every command word, executed or refused, gets exactly one response, with the data the table
gives; the words of a composite extraction stand with the first extracted in the highest bits. -/
def Obligations.EveryCommandGetsOneResponse : Prop :=
  ∀ (s : State) (tk : Taken), s.config.Legal → s.takeCommand = some tk →
    ∃ t r, step s = .next t ∧ t.respChan = s.respChan ++ [r] ∧
      (r.status ≠ .ok → r.data = 0) ∧
      (r.status = .ok → ∃ i, decode tk.word = .ok i ∧
        (i.mnemonic = .reset ∨ i.mnemonic = .step ∨ i.mnemonic = .salt ∨ i.mnemonic = .saltk ∨
          i.mnemonic = .absorb → r.data = 0) ∧
        (i.mnemonic = .extract32 → r.data = BitVec.setWidth 128 s.engine.x32) ∧
        (i.mnemonic = .extract64 → r.data = BitVec.setWidth 128 (s.engine.x32 ++ t.engine.x32)) ∧
        (∀ k1 k2 k3 a b c, i = .extract128 k1 k2 k3 → s.config.saltTable.entry k1 = some a →
          s.config.saltTable.entry k2 = some b → s.config.saltTable.entry k3 = some c →
          r.data = (s.engine.x32 ++ (s.engine.salt stepFn a).x32 ++ ((s.engine.salt stepFn a).salt stepFn b).x32 ++
            (((s.engine.salt stepFn a).salt stepFn b).salt stepFn c).x32 : BitVec (32 + 32 + 32 + 32))))

/-- R85, R179: the status of a response is the verdict of the five checks in order, computed from the bits of the word
and the length of the payload; only a word that passes all five is executed. -/
def Obligations.StatusFollowsTheDecodingOrder : Prop :=
  ∀ (s : State) (tk : Taken), s.config.Legal → s.takeCommand = some tk →
    ∃ t d, step s = .next t ∧
      t.respChan = s.respChan ++
        [{ status := verdict s.config tk.word (tk.payload.getD []).length, data := d }] ∧
      (verdict s.config tk.word (tk.payload.getD []).length ≠ .ok → t.engine = s.engine)

/-- 60_exceptions.md R170: no command faults, and every refusal is decided from the command word and the payload
length alone: the status does not depend on the lanes or on the bytes of the block, and a refused command writes no lane.
The first clause also counts the step that waits for a command, which is the model's choice (log 5). -/
def Obligations.NoCommandFaults : Prop :=
  (∀ (s : State), s.config.Legal → s.Safe) ∧
  (∀ (s s' : State) (tk tk' : Taken), s.config.Legal → s.config = s'.config → s.takeCommand = some tk →
    s'.takeCommand = some tk' → tk.word = tk'.word →
    (tk.payload.getD []).length = (tk'.payload.getD []).length →
    ∃ t t' st d d', step s = .next t ∧ step s' = .next t' ∧
      t.respChan = s.respChan ++ [{ status := st, data := d }] ∧
      t'.respChan = s'.respChan ++ [{ status := st, data := d' }] ∧
      (st ≠ .ok → t.engine = s.engine ∧ t'.engine = s'.engine))

/-- 10_state.md R21 (an inference the spec marks as its own), R34: between commands every lane holds a residue and the
block window holds nothing, and the configuration stays one the hardware can have: every step keeps it, from every
state that meets it. -/
def Obligations.StepKeepsTheInvariant : Prop :=
  ∀ (s t : State), s.Inv → step s = .next t → t.Inv

/-- Every instance that is constructed meets the invariant, State.reset among them (R35, R36; logs 1 and 2 name the
configuration State.reset is built with). -/
def Obligations.FreshInstancesMeetTheInvariant : Prop :=
  (∀ (c : Configuration) (s : State), State.construct c = some s → s.Inv) ∧
  State.construct resetConfiguration = some State.reset ∧ State.reset.Inv

/-- R24, R28, R29: the configuration is read-only: no step changes it. -/
def Obligations.ConfigurationIsReadOnly : Prop :=
  ∀ (s t : State), step s = .next t → t.config = s.config

/-- 00_scope.md R10, 42_absorb.md R136, 93_implementation_defined.md U5, U6: the legal block sizes are 1 and every
even size of 2 or more; a salt of zero rounds is no entry; an instance with another configuration is not constructed. That
the step refuses a state with such a configuration is the model's reading of "does not exist as hardware" (log 10). -/
def Obligations.IllegalConfigurationsDoNotRun : Prop :=
  (∀ (c : Configuration), ¬ c.Legal → State.construct c = none) ∧
  (∀ (c : Configuration), c.blockSize = 0 ∨ (c.blockSize % 2 = 1 ∧ c.blockSize ≠ 1) → State.construct c = none) ∧
  (∀ (s : State), ¬ s.config.Legal → step s = .refused .illegalConfiguration) ∧
  (∀ (s : State), s.config.blockSize % 2 = 1 → s.config.blockSize ≠ 1 → step s = .refused .illegalConfiguration) ∧
  (∀ (s : State), s.config.blockSize = 0 → step s = .refused .illegalConfiguration) ∧
  (∀ (s : State) (k : BitVec 3) (salt : Salt), s.config.saltTable.entry k = some salt → salt.rounds = 0 →
    step s = .refused .illegalConfiguration) ∧
  (∀ (t : SaltTable), t.Legal → Configuration.Legal { blockSize := 1, saltTable := t }) ∧
  (∀ (t : SaltTable) (h : Nat), t.Legal → Configuration.Legal { blockSize := 2 * (h + 1), saltTable := t })

/-! ## The channels and the host -/

/-- 20_memory.md R64, 30_encoding.md R70: commands offered on the channels of a legal instance take effect in the
order the host issued them, one a step: running the machine over them is executing them one after the other. The channels
have no bound, which is the model's choice (log 9). -/
def Obligations.ChannelsServeOffersInOrder : Prop :=
  ∀ (os : List Offer) (s u : State), s.config.Legal → s.cmdChan = [] → s.blockChan = [] →
    (∀ o ∈ os, o.payload.isSome = decide (o.instr = .absorb)) → serve os s = .next u →
    Host.Core.run core os.length (s.offer os) = .next u

/-- 70_reset_and_hazards.md R218: the blocks of a file have `N` bytes each and together are the file and fewer than `N`
zero bytes; a file whose length is a multiple of `N` gets no extra block. -/
def Obligations.BlocksAreThePaddedFile : Prop :=
  ∀ (n : Nat) (file : List Byte), 1 ≤ n →
    (∀ b ∈ blocksOf n file, b.length = n) ∧
    (∃ z, z < n ∧ (blocksOf n file).flatten = file ++ List.replicate z 0) ∧
    (file.length % n = 0 → (blocksOf n file).length = file.length / n)

/-- 42_absorb.md R143, 70_reset_and_hazards.md R217: files that are cut and padded into the same blocks have the same
result, under both strategies, unless a salt of the schedule tells their lengths apart. The first clause is the case R217
names, a file and the file with a zero byte added inside its last block; the last two say that a schedule that tells
padding apart (the model's reading of R217's aim, log 21) sends the two files other commands. -/
def Obligations.OnlyTheScheduleTellsPaddingFromData : Prop :=
  (∀ (n : Nat) (file : List Byte), 1 ≤ n → file.length % n ≠ 0 → blocksOf n (file ++ [0]) = blocksOf n file) ∧
  (∀ (c : Configuration) (sched : SaltSchedule) (policy : EmptyInputPolicy) (file file' : List Byte), file ≠ [] →
    file' ≠ [] → blocksOf c.blockSize file = blocksOf c.blockSize file' →
    sched.saltsAt file.length = sched.saltsAt file'.length →
    chainHash c sched policy file = chainHash c sched policy file') ∧
  (∀ (c : Configuration) (sched : FoldSchedule) (policy : EmptyInputPolicy) (file file' : List Byte), file ≠ [] →
    file' ≠ [] → blocksOf c.blockSize file = blocksOf c.blockSize file' → sched.pre file.length = sched.pre file'.length →
    sched.post file.length = sched.post file'.length → sched.reading file.length = sched.reading file'.length →
    foldHash c sched policy file = foldHash c sched policy file') ∧
  (∀ (sched : SaltSchedule) (n : Nat) (file file' : List Byte), 1 ≤ n → file ≠ [] → file' ≠ [] →
    file.length ≠ file'.length → blocksOf n file = blocksOf n file' → TellsPaddingApart sched.saltsAt n →
    chainOffers sched n file ≠ chainOffers sched n file') ∧
  (∀ (sched : FoldSchedule) (n : Nat) (file file' : List Byte) (block : List Byte), 1 ≤ n → file ≠ [] → file' ≠ [] →
    file.length ≠ file'.length → blocksOf n file = blocksOf n file' → TellsPaddingApart sched.saltsAt n →
    foldOffers sched file.length block ≠ foldOffers sched file'.length block)

/-- R203, R212 to R215, R219, R220, R233: the commands of both strategies, under a schedule that meets its duties, form a
computation that ends Done with no transition skipped, from RESET on any instance and without RESET on a fresh one. Every
computation ends with the command that reads the last word, and none goes on after it. The language is the model's reading
of R203 and R212 (logs 14, 15 and 22). -/
def Obligations.StrategiesFollowTheProtocol : Prop :=
  (∀ (t : SaltTable) (sched : SaltSchedule) (n : Nat) (file : List Byte), 1 ≤ n → file ≠ [] →
    sched.Dutiful t file.length →
    ValidComputation .chain t false ((chainOffers sched n file).map fun o => o.instr) ∧
    ValidComputation .chain t true ((chainBody sched n file).map fun o => o.instr)) ∧
  (∀ (t : SaltTable) (sched : FoldSchedule) (len : Nat) (block : List Byte), sched.Dutiful t len →
    ValidComputation .xorFold t false ((foldOffers sched len block).map fun o => o.instr) ∧
    ValidComputation .xorFold t true ((foldBody sched len block).map fun o => o.instr)) ∧
  (∀ (st : Strategy) (t : SaltTable) (fresh : Bool) (is : List Instr), ValidComputation st t fresh is →
    (∃ before last, is = before ++ [last] ∧ (last.mnemonic = .extract32 ∨ last.mnemonic = .extract128)) ∧
    ∀ (i : Instr) (more : List Instr), ¬ ValidComputation st t fresh (is ++ i :: more))

/-- R232, 43_extract.md R158: a host that keeps to the protocol reads as many words as it likes, with EXTRACT32, EXTRACT64
and EXTRACT128: on every legal instance none of its commands is refused and the words it asked for come back, those after
the last RESET. The language is the model's reading (logs 14 and 22). -/
def Obligations.ProtocolReadsAsManyWordsAsItAsks : Prop :=
  ∀ (st : Strategy) (fresh : Bool) (words : Nat) (os : List Offer) (s : State), s.config.Legal →
    (∀ o ∈ os, o.payload.isSome = decide (o.instr = .absorb)) →
    (∀ o ∈ os, ∀ b ∈ o.payload, b.length = s.config.blockSize) →
    ValidReading st s.config.saltTable fresh words (os.map fun o => o.instr) →
    ∃ t ws, serve os s = .next t ∧ readWords (some []) os (t.respChan.drop s.respChan.length) = some ws ∧
      ws.length = words

/-- R203, 10_state.md R37 (an inference the spec marks as its own): a fresh instance needs no RESET: with or without it
the commands that follow leave the same lanes and answer the same, and a digest read is the same. -/
def Obligations.FreshInstancesNeedNoReset : Prop :=
  ∀ (c : Configuration) (os : List Offer) (s0 s : State), State.construct c = some s0 → serve os s0 = .next s →
    ∃ t, serve (Offer.plain .reset :: os) s0 = .next t ∧ t.engine = s.engine ∧
      t.respChan = { status := .ok, data := 0 } :: s.respChan ∧
      digestOfRun (Offer.plain .reset :: os) t.respChan = digestOfRun os s.respChan

/-- 43_extract.md R156, R158: words are joined most significant first, whatever their number: one more word stands below
those before it, and four are the digest `(word0 << 96) | (word1 << 64) | (word2 << 32) | word3`. -/
def Obligations.WordsAreJoinedMostSignificantFirst : Prop :=
  (∀ (ws : List (BitVec 32)) (w : BitVec 32), joinNumber (ws ++ [w]) = 4294967296 * joinNumber ws + w.toNat) ∧
  joinNumber [] = 0 ∧
  (∀ (ws : List (BitVec 32)), joinNumber ws < 2 ^ (32 * ws.length)) ∧
  (∀ (w0 w1 w2 w3 : BitVec 32), ∃ d, joinWords [w0, w1, w2, w3] = some d ∧
    d.toNat = 2 ^ 96 * w0.toNat + 2 ^ 64 * w1.toNat + 2 ^ 32 * w2.toNat + w3.toNat) ∧
  (∀ (ws : List (BitVec 32)), ws.length ≠ 4 → joinWords ws = none)

/-- R211, R219, R220: both strategies end in a digest for every non-empty file, on every legal configuration,
under a schedule that meets its duties: no command of theirs is refused. The duties and the form of the XOR-fold are the
model's reading (logs 14 and 15). -/
def Obligations.BothStrategiesEndInADigest : Prop :=
  (∀ (c : Configuration) (sched : SaltSchedule) (policy : EmptyInputPolicy) (file : List Byte), c.Legal →
    file ≠ [] → sched.Dutiful c.saltTable file.length → ∃ d, chainHash c sched policy file = .digest d) ∧
  (∀ (c : Configuration) (sched : FoldSchedule) (policy : EmptyInputPolicy) (file : List Byte), c.Legal →
    file ≠ [] → sched.Dutiful c.saltTable file.length → ∃ d, foldHash c sched policy file = .digest d)

/-- R220, 95_test_vectors.md S4: the digest of the XOR-fold does not depend on the order in which the blocks are
hashed, nor on what the instance computed before. That the blocks are hashed on one instance and folded from 0 is the
model's choice (log 15). -/
def Obligations.XorFoldIgnoresBlockOrder : Prop :=
  ∀ (sched : FoldSchedule) (len : Nat) (blocks blocks' : List (List Byte)) (s s' : State),
    blocks.Perm blocks' → s.config = s'.config →
    foldDigest sched len blocks s = foldDigest sched len blocks' s'
end

