-- ==== Sys2Proof/Laws/State.lean ====
section
/-! SUPPORT. One lemma per field per update of State and Engine, each true by rfl, so that no proof unfolds a record
update. -/

namespace Sys2Proof.Machine

@[simp] theorem fresh_engine (c : Configuration) : (State.fresh c).engine = Engine.seed := rfl
@[simp] theorem fresh_config (c : Configuration) : (State.fresh c).config = c := rfl
@[simp] theorem fresh_window (c : Configuration) : (State.fresh c).window = [] := rfl
@[simp] theorem fresh_cmdChan (c : Configuration) : (State.fresh c).cmdChan = [] := rfl
@[simp] theorem fresh_blockChan (c : Configuration) : (State.fresh c).blockChan = [] := rfl
@[simp] theorem fresh_respChan (c : Configuration) : (State.fresh c).respChan = [] := rfl

/-- A legal configuration makes an instance (00_scope.md R10). -/
@[simp] theorem construct_of_legal {c : Configuration} (h : c.Legal) : State.construct c = some (State.fresh c) :=
  if_pos h

/-- An illegal configuration makes none (00_scope.md R10). -/
@[simp] theorem construct_of_not_legal {c : Configuration} (h : ¬ c.Legal) : State.construct c = none := if_neg h

@[simp] theorem withEngine_engine (s : State) (e : Engine) : (s.withEngine e).engine = e := rfl
@[simp] theorem withEngine_config (s : State) (e : Engine) : (s.withEngine e).config = s.config := rfl
@[simp] theorem withEngine_window (s : State) (e : Engine) : (s.withEngine e).window = s.window := rfl
@[simp] theorem withEngine_cmdChan (s : State) (e : Engine) : (s.withEngine e).cmdChan = s.cmdChan := rfl
@[simp] theorem withEngine_blockChan (s : State) (e : Engine) : (s.withEngine e).blockChan = s.blockChan := rfl
@[simp] theorem withEngine_respChan (s : State) (e : Engine) : (s.withEngine e).respChan = s.respChan := rfl

@[simp] theorem closeWindow_engine (s : State) : s.closeWindow.engine = s.engine := rfl
@[simp] theorem closeWindow_config (s : State) : s.closeWindow.config = s.config := rfl
@[simp] theorem closeWindow_window (s : State) : s.closeWindow.window = [] := rfl
@[simp] theorem closeWindow_cmdChan (s : State) : s.closeWindow.cmdChan = s.cmdChan := rfl
@[simp] theorem closeWindow_blockChan (s : State) : s.closeWindow.blockChan = s.blockChan := rfl
@[simp] theorem closeWindow_respChan (s : State) : s.closeWindow.respChan = s.respChan := rfl

@[simp] theorem respond_engine (s : State) (st : Status) (d : BitVec 128) : (s.respond st d).engine = s.engine := rfl
@[simp] theorem respond_config (s : State) (st : Status) (d : BitVec 128) : (s.respond st d).config = s.config := rfl
@[simp] theorem respond_window (s : State) (st : Status) (d : BitVec 128) : (s.respond st d).window = s.window := rfl
@[simp] theorem respond_cmdChan (s : State) (st : Status) (d : BitVec 128) : (s.respond st d).cmdChan = s.cmdChan := rfl
@[simp] theorem respond_blockChan (s : State) (st : Status) (d : BitVec 128) :
    (s.respond st d).blockChan = s.blockChan := rfl
@[simp] theorem respond_respChan (s : State) (st : Status) (d : BitVec 128) :
    (s.respond st d).respChan = s.respChan ++ [{ status := st, data := d }] := rfl

@[simp] theorem refuse_engine (s : State) (st : Status) : (s.refuse st).engine = s.engine := rfl
@[simp] theorem refuse_config (s : State) (st : Status) : (s.refuse st).config = s.config := rfl
@[simp] theorem refuse_window (s : State) (st : Status) : (s.refuse st).window = s.window := rfl
@[simp] theorem refuse_cmdChan (s : State) (st : Status) : (s.refuse st).cmdChan = s.cmdChan := rfl
@[simp] theorem refuse_blockChan (s : State) (st : Status) : (s.refuse st).blockChan = s.blockChan := rfl
@[simp] theorem refuse_respChan (s : State) (st : Status) :
    (s.refuse st).respChan = s.respChan ++ [{ status := st, data := 0 }] := rfl

@[simp] theorem openWindow_none (s : State) : s.openWindow none = s := rfl
@[simp] theorem openWindow_some_window (s : State) (b : List Byte) :
    (s.openWindow (some b)).window = Memory.ofPayload b := rfl
@[simp] theorem openWindow_engine (s : State) (p : Option (List Byte)) : (s.openWindow p).engine = s.engine := by
  cases p <;> rfl
@[simp] theorem openWindow_config (s : State) (p : Option (List Byte)) : (s.openWindow p).config = s.config := by
  cases p <;> rfl
@[simp] theorem openWindow_cmdChan (s : State) (p : Option (List Byte)) : (s.openWindow p).cmdChan = s.cmdChan := by
  cases p <;> rfl
@[simp] theorem openWindow_blockChan (s : State) (p : Option (List Byte)) :
    (s.openWindow p).blockChan = s.blockChan := by
  cases p <;> rfl
@[simp] theorem openWindow_respChan (s : State) (p : Option (List Byte)) :
    (s.openWindow p).respChan = s.respChan := by
  cases p <;> rfl

@[simp] theorem offerFirst_engine (s : State) (w : CmdWord) (p : Option (List Byte)) :
    (s.offerFirst w p).engine = s.engine := by cases p <;> rfl
@[simp] theorem offerFirst_config (s : State) (w : CmdWord) (p : Option (List Byte)) :
    (s.offerFirst w p).config = s.config := by cases p <;> rfl
@[simp] theorem offerFirst_window (s : State) (w : CmdWord) (p : Option (List Byte)) :
    (s.offerFirst w p).window = s.window := by cases p <;> rfl
@[simp] theorem offerFirst_cmdChan (s : State) (w : CmdWord) (p : Option (List Byte)) :
    (s.offerFirst w p).cmdChan = w :: s.cmdChan := by cases p <;> rfl
@[simp] theorem offerFirst_respChan (s : State) (w : CmdWord) (p : Option (List Byte)) :
    (s.offerFirst w p).respChan = s.respChan := by cases p <;> rfl

@[simp] theorem offer_engine (s : State) (os : List Offer) : (s.offer os).engine = s.engine := rfl
@[simp] theorem offer_config (s : State) (os : List Offer) : (s.offer os).config = s.config := rfl
@[simp] theorem offer_window (s : State) (os : List Offer) : (s.offer os).window = s.window := rfl
@[simp] theorem offer_respChan (s : State) (os : List Offer) : (s.offer os).respChan = s.respChan := rfl
@[simp] theorem offer_cmdChan (s : State) (os : List Offer) :
    (s.offer os).cmdChan = s.cmdChan ++ os.map (fun o => encode o.instr) := rfl
@[simp] theorem offer_blockChan (s : State) (os : List Offer) :
    (s.offer os).blockChan = s.blockChan ++ os.filterMap (fun o => o.payload) := rfl

@[simp] theorem pairStep_r251 (f : StepFn) (w0 w1 : Word) (e : Engine) :
    (e.pairStep f w0 w1).r251 = f .r251 e.r251 w0 := rfl
@[simp] theorem pairStep_r241 (f : StepFn) (w0 w1 : Word) (e : Engine) :
    (e.pairStep f w0 w1).r241 = f .r241 e.r241 w1 := rfl

end Sys2Proof.Machine
end

