-- ==== Sys2Proof/Laws/Ops.lean ====
section
/-! SUPPORT. What each shared operation does, once: sequences of pair steps, salts as such sequences, the step's
lanes, the block window and the reads from it. -/

namespace Sys2Proof.Machine

/-! ## Sequences of pair steps -/

@[simp] theorem feed_nil (f : StepFn) (e : Engine) : e.feed f [] = e := rfl

@[simp] theorem feed_cons (f : StepFn) (w : Word × Word) (ws : List (Word × Word)) (e : Engine) :
    e.feed f (w :: ws) = (e.pairStep f w.1 w.2).feed f ws := rfl

theorem feed_append (f : StepFn) (ws vs : List (Word × Word)) (e : Engine) :
    e.feed f (ws ++ vs) = (e.feed f ws).feed f vs := by
  simp [Engine.feed]

/-- The steps of R251 in a sequence of pair steps see only the first input words (R65). -/
theorem feed_r251 (f : StepFn) (ws : List (Word × Word)) (e : Engine) :
    (e.feed f ws).r251 = (ws.map Prod.fst).foldl (f .r251) e.r251 := by
  induction ws generalizing e with
  | nil => rfl
  | cons w ws ih => simp [ih]

/-- The steps of R241 in a sequence of pair steps see only the second input words (R65). -/
theorem feed_r241 (f : StepFn) (ws : List (Word × Word)) (e : Engine) :
    (e.feed f ws).r241 = (ws.map Prod.snd).foldl (f .r241) e.r241 := by
  induction ws generalizing e with
  | nil => rfl
  | cons w ws ih => simp [ih]

@[simp] theorem saltRounds_zero (f : StepFn) (n0 n1 : Word) (e : Engine) : e.saltRounds f 0 n0 n1 = e := rfl

@[simp] theorem saltRounds_succ (f : StepFn) (q : Nat) (n0 n1 : Word) (e : Engine) :
    e.saltRounds f (q + 1) n0 n1 = (e.pairStep f n0 n1).saltRounds f q n0 n1 := rfl

/-- A salt is a sequence of pair steps with constant inputs (R120). -/
theorem saltRounds_eq_feed (f : StepFn) (q : Nat) (n0 n1 : Word) (e : Engine) :
    e.saltRounds f q n0 n1 = e.feed f (List.replicate q (n0, n1)) := by
  induction q generalizing e with
  | zero => rfl
  | succ q ih => simp [List.replicate_succ, ih]

/-- Applying a Salt is a sequence of pair steps (R121). -/
theorem salt_eq_feed (f : StepFn) (salt : Salt) (e : Engine) :
    e.salt f salt = e.feed f (List.replicate salt.rounds (salt.noise0, salt.noise1)) :=
  saltRounds_eq_feed f salt.rounds salt.noise0 salt.noise1 e

/-- Residues are kept by any sequence of pair steps of a step function that keeps them. -/
theorem feed_residues {f : StepFn} (hf : f.KeepsResidues) (ws : List (Word × Word)) {e : Engine}
    (he : e.Residues) : (e.feed f ws).Residues := by
  induction ws generalizing e with
  | nil => exact he
  | cons w ws ih => exact ih ⟨(hf e.r251 w.1).1 he.1, (hf e.r241 w.2).2 he.2⟩

/-! ## The step of a Register -/

/-- A lane written by the step holds its remainder: 16 bits lose nothing of it. -/
theorem toNat_ofNat_mod {p : Nat} (hp : 0 < p) (hp' : p ≤ 65536) (x : Nat) :
    (BitVec.ofNat 16 (x % p)).toNat = x % p := by
  have h := Nat.mod_lt x hp
  simp only [BitVec.toNat_ofNat]
  omega

/-- Every lane of a stepped Register is below the modulus, whatever the state and the arithmetic. -/
theorem registerStep_below (a : Arith) {p : Nat} (hp : 0 < p) (hp' : p ≤ 65536) (k : Lanes Nat) (s : Lanes Lane)
    (w : Word) : (registerStep a p k s w).Below p := by
  simp only [Lanes.Below, registerStep, toNat_ofNat_mod hp hp', Nat.mod_lt _ hp, and_self]

/-! ## The block window -/

@[simp] theorem ofBytesFrom_length (a : Nat) (bs : List Byte) : (Memory.ofBytesFrom a bs).length = bs.length := by
  induction bs generalizing a with
  | nil => rfl
  | cons b bs ih => simp [Memory.ofBytesFrom, ih]

@[simp] theorem ofPayload_length (bs : List Byte) : (Memory.ofPayload bs).length = bs.length :=
  ofBytesFrom_length 0 bs

theorem ofBytesFrom_offset_le {a : Nat} {bs : List Byte} {c : Host.Cell} (h : c ∈ Memory.ofBytesFrom a bs) :
    a ≤ c.1 := by
  induction bs generalizing a with
  | nil => simp [Memory.ofBytesFrom] at h
  | cons b bs ih =>
    simp only [Memory.ofBytesFrom, List.mem_cons] at h
    rcases h with rfl | h
    · exact Nat.le_refl _
    · exact Nat.le_of_succ_le (ih h)

theorem ofBytesFrom_wf (a : Nat) (bs : List Byte) : (Memory.ofBytesFrom a bs).wf := by
  induction bs generalizing a with
  | nil => exact List.Pairwise.nil
  | cons b bs ih => exact List.Pairwise.cons (fun c hc => ofBytesFrom_offset_le hc) (ih (a + 1))

/-- Opening a window gives the canonical form; so does closing it, and no other operation writes a window. -/
theorem ofPayload_wf (bs : List Byte) : (Memory.ofPayload bs).wf := ofBytesFrom_wf 0 bs

theorem closeWindow_wf (s : State) : s.closeWindow.window.wf := List.Pairwise.nil

theorem openWindow_wf {s : State} (h : s.window.wf) (p : Option (List Byte)) : (s.openWindow p).window.wf := by
  cases p with
  | none => exact h
  | some b => exact ofPayload_wf b

theorem reset_window_wf : State.reset.window.wf := List.Pairwise.nil

theorem readByte_ofBytesFrom (a : Nat) (bs : List Byte) (off : Nat) :
    (Memory.ofBytesFrom a bs).readByte (a + off) = bs[off]? := by
  induction bs generalizing a off with
  | nil => rfl
  | cons b bs ih =>
    cases off with
    | zero => simp [Memory.ofBytesFrom, Memory.readByte]
    | succ off =>
      have h := ih (a + 1) off
      rw [show a + 1 + off = a + (off + 1) by omega] at h
      simp [Memory.ofBytesFrom, Memory.readByte, h]

/-- A byte read of the window of a payload is the payload's byte; outside there is none (R52, R54). -/
theorem readByte_ofPayload (bs : List Byte) (off : Nat) : (Memory.ofPayload bs).readByte off = bs[off]? := by
  have h := readByte_ofBytesFrom 0 bs off
  rwa [Nat.zero_add] at h

/-- Two bytes joined, the first one low (R53). -/
theorem join_toNat (lo hi : Byte) :
    (lo.setWidth 16 ||| (hi.setWidth 16 <<< 8) : Word).toNat = lo.toNat + 256 * hi.toNat := by
  have hlo := lo.isLt
  have hhi := hi.isLt
  have h1 : lo.toNat % 2 ^ 16 = lo.toNat := Nat.mod_eq_of_lt (by omega)
  have h2 : (hi.toNat % 2 ^ 16) <<< 8 % 2 ^ 16 = hi.toNat <<< 8 := by
    rw [Nat.shiftLeft_eq, Nat.shiftLeft_eq]
    omega
  rw [BitVec.toNat_or, BitVec.toNat_shiftLeft, BitVec.toNat_setWidth, BitVec.toNat_setWidth, h1, h2, Nat.or_comm,
    ← Nat.shiftLeft_add_eq_or_of_lt hlo, Nat.shiftLeft_eq]
  omega

/-- A word read inside the window of a payload (R53). -/
theorem readWord_ofPayload {bs : List Byte} {off : Nat} (h : off + 1 < bs.length) :
    (Memory.ofPayload bs).readWord off = some (blockWord bs off) := by
  have h0 : off < bs.length := by omega
  simp only [Memory.readWord, readByte_ofPayload, List.getElem?_eq_getElem h, List.getElem?_eq_getElem h0,
    blockWord, List.getD_eq_getElem?_getD, Option.getD_some]
  congr 1
  apply BitVec.eq_of_toNat_eq
  rw [join_toNat, BitVec.toNat_ofNat]
  have := bs[off].isLt
  have := bs[off + 1].isLt
  omega

/-- The duplicated byte (R133). -/
theorem dup_eq (b : Byte) : dup b = BitVec.ofNat 16 (257 * b.toNat) := by
  apply BitVec.eq_of_toNat_eq
  rw [dup, join_toNat, BitVec.toNat_ofNat]
  have := b.isLt
  omega

/-! ## The inputs of an ABSORB -/

theorem allInside_map_some (l : List (Word × Word)) : allInside (l.map some) = some l := by
  induction l with
  | nil => rfl
  | cons w ws ih => simp [allInside, ih]

theorem allInside_length {l : List (Option (Word × Word))} {ws : List (Word × Word)} (h : allInside l = some ws) :
    ws.length = l.length := by
  induction l generalizing ws with
  | nil => simp_all [allInside]
  | cons o l ih =>
    cases o with
    | none => simp [allInside] at h
    | some w =>
      cases hl : allInside l with
      | none => simp [allInside, hl] at h
      | some vs =>
        simp only [allInside, hl, Option.some.injEq] at h
        subst h
        simp [ih hl]

/-- How many input pairs an ABSORB that reads inside its window has (R23). -/
theorem absorbInputs_length {n : Nat} {m : Memory} {ws : List (Word × Word)} (h : absorbInputs n m = some ws) :
    ws.length = n / 2 + (if 2 < n then 3 else 0) + 1 := by
  have h := allInside_length h
  simp only [mainPass, boundaryPass, List.length_append, List.length_map, List.length_range, List.length_cons,
    List.length_nil] at h
  split at h <;> simp_all

/-- Over the window of a block of legal size every read is inside, and the inputs are the two lists of R137. -/
theorem absorbInputs_ofPayload {bs : List Byte} (h : BlockSizeLegal bs.length) :
    absorbInputs bs.length (Memory.ofPayload bs) = some ((inputsOfR251 bs).zip (inputsOfR241 bs)) := by
  have hpos : 0 < bs.length := by omega
  have hmain : mainPass bs.length (Memory.ofPayload bs) =
      ((List.range (bs.length / 2)).map fun i =>
        (blockWord bs (2 * i), blockWord bs (bs.length - 2 - 2 * i))).map some := by
    rw [mainPass, List.map_map]
    apply List.map_congr_left
    intro i hi
    rw [List.mem_range] at hi
    simp [readWord_ofPayload (bs := bs) (off := 2 * i) (by omega),
      readWord_ofPayload (bs := bs) (off := bs.length - 2 - 2 * i) (by omega), inputPair]
  have hbound : boundaryPass bs.length (Memory.ofPayload bs) =
      (if 2 < bs.length then List.replicate 3 (blockWord bs 1, blockWord bs (bs.length - 3)) else []).map some := by
    rw [boundaryPass]
    split
    · simp [readWord_ofPayload (bs := bs) (off := 1) (by omega),
        readWord_ofPayload (bs := bs) (off := bs.length - 3) (by omega), inputPair]
    · rfl
  have hfinal : finalStep (Memory.ofPayload bs) = some (blockDup bs, blockDup bs) := by
    simp [finalStep, readByte_ofPayload, List.getElem?_eq_getElem hpos, dup_eq, blockDup]
  rw [absorbInputs, hmain, hbound, hfinal]
  rw [show [some (blockDup bs, blockDup bs)] = [(blockDup bs, blockDup bs)].map some from rfl,
    ← List.map_append, ← List.map_append, allInside_map_some]
  congr 1
  rw [inputsOfR251, inputsOfR241, List.zip_append (by split <;> simp), List.zip_append (by simp), List.zip_map']
  congr 2
  split <;> rfl

end Sys2Proof.Machine
end

