-- ==== Sys2Proof/Laws/Decode.lean ====
section
/-! SUPPORT. The fields of a word made of fields, and the opcode numbers read back: what the decoder needs to know of
the encoder. -/

namespace Sys2Proof

@[simp] theorem opField_wordOfFields (op : BitVec 8) (a : BitVec 24) (w1 w0 : Word) :
    opField (wordOfFields op a w1 w0) = op := by
  ext i hi
  simp only [opField, wordOfFields, BitVec.getElem_extractLsb', BitVec.getLsbD_append]
  simp [show ¬ 56 + i < 16 by omega, show ¬ 56 + i - 16 < 16 by omega, show ¬ 56 + i - 16 - 16 < 24 by omega,
    show 56 + i - 16 - 16 - 24 = i by omega, BitVec.getLsbD_eq_getElem hi]

@[simp] theorem roundsField_wordOfFields (op : BitVec 8) (a : BitVec 24) (w1 w0 : Word) :
    roundsField (wordOfFields op a w1 w0) = a := by
  ext i hi
  simp only [roundsField, wordOfFields, BitVec.getElem_extractLsb', BitVec.getLsbD_append]
  simp [show ¬ 32 + i < 16 by omega, show ¬ 32 + i - 16 < 16 by omega, show 32 + i - 16 - 16 = i by omega, hi]

@[simp] theorem w1Field_wordOfFields (op : BitVec 8) (a : BitVec 24) (w1 w0 : Word) :
    w1Field (wordOfFields op a w1 w0) = w1 := by
  ext i hi
  simp only [w1Field, wordOfFields, BitVec.getElem_extractLsb', BitVec.getLsbD_append]
  simp [show ¬ 16 + i < 16 by omega, show 16 + i - 16 = i by omega, hi]

@[simp] theorem w0Field_wordOfFields (op : BitVec 8) (a : BitVec 24) (w1 w0 : Word) :
    w0Field (wordOfFields op a w1 w0) = w0 := by
  ext i hi
  simp only [w0Field, wordOfFields, BitVec.getElem_extractLsb', BitVec.getLsbD_append]
  simp [hi]

@[simp] theorem mnemonicOfOp_op (m : Mnemonic) : mnemonicOfOp m.op = some m := by cases m <;> rfl

/-- The opcode byte that names a command is its number in the opcode map (R75). -/
theorem op_of_mnemonicOfOp {op : BitVec 8} {m : Mnemonic} (h : mnemonicOfOp op = some m) : op = m.op := by
  unfold mnemonicOfOp at h
  split at h <;> [(cases h; assumption); skip]
  split at h <;> [(cases h; assumption); skip]
  split at h <;> [(cases h; assumption); skip]
  split at h <;> [(cases h; assumption); skip]
  split at h <;> [(cases h; assumption); skip]
  split at h <;> [(cases h; assumption); skip]
  split at h <;> [(cases h; assumption); skip]
  split at h <;> [(cases h; assumption); skip]
  cases h

@[simp] theorem instrOfFields_mnemonic (m : Mnemonic) (w : CmdWord) : (instrOfFields m w).mnemonic = m := by
  cases m <;> rfl

/-- What a word that decodes looks like: its opcode names the command, its reserved bits are clear, and the operands are
its fields (R73, R85). -/
theorem decode_ok_iff {w : CmdWord} {i : Instr} :
    decode w = .ok i ↔ mnemonicOfOp (opField w) = some i.mnemonic ∧ reservedClear i.mnemonic w = true ∧
      i = instrOfFields i.mnemonic w := by
  unfold decode
  constructor
  · intro h
    split at h
    · cases h
    · rename_i m hm
      split at h
      · rename_i hr
        cases h
        simp [hm, hr]
      · cases h
  · rintro ⟨h1, h2, h3⟩
    simp only [h1, h2, if_true]
    rw [← h3]

/-- The words the decoder rejects, and why (R79, R80). -/
theorem decode_error_cases {w : CmdWord} {e : DecodeError} (h : decode w = .error e) :
    (mnemonicOfOp (opField w) = none ∧ e = .illegalOpcode) ∨
    (∃ m, mnemonicOfOp (opField w) = some m ∧ reservedClear m w = false ∧ e = .reservedField) := by
  unfold decode at h
  split at h
  · rename_i hm
    cases h
    exact .inl ⟨hm, rfl⟩
  · rename_i m hm
    split at h
    · cases h
    · rename_i hr
      cases h
      exact .inr ⟨m, hm, by simpa using hr, rfl⟩

/-- The opcode of an encoded command is its row's (R75). -/
@[simp] theorem opField_encode (i : Instr) : opField (encode i) = i.mnemonic.op := by
  cases i <;> simp only [encode, opField_wordOfFields, Instr.mnemonic]

end Sys2Proof
end

