-- ==== Sys2Proof/Laws/Encode.lean ====
section
/-! SUPPORT. The encoder's words seen by the decoder: index fields read back, and reserved bits clear. -/

namespace Sys2Proof

/-- A bit of a word made of fields: of `W0`, of `W1`, of `A` or of `OP` (R71). -/
theorem getLsbD_wordOfFields (op : BitVec 8) (a : BitVec 24) (w1 w0 : Word) (j : Nat) :
    (wordOfFields op a w1 w0).getLsbD j =
      if j < 16 then w0.getLsbD j else if j < 32 then w1.getLsbD (j - 16)
      else if j < 56 then a.getLsbD (j - 32) else op.getLsbD (j - 56) := by
  simp only [wordOfFields, BitVec.getLsbD_append]
  split_ifs <;> first | rfl | omega

/-- The bits of the 24-bit field from bit `n` on (R71, R72). -/
theorem extract_wordOfFields (op : BitVec 8) (a : BitVec 24) (w1 w0 : Word) {n m : Nat} (h : n + m ≤ 24) :
    (wordOfFields op a w1 w0).extractLsb' (32 + n) m = a.extractLsb' n m := by
  ext i hi
  simp only [BitVec.getElem_extractLsb', getLsbD_wordOfFields]
  rw [if_neg (by omega), if_neg (by omega), if_pos (by omega)]
  congr 1
  omega

/-- The low half of a word whose `W1` and `W0` are zero (R80). -/
theorem low_wordOfFields (op : BitVec 8) (a : BitVec 24) : (wordOfFields op a 0 0).extractLsb' 0 32 = 0 := by
  ext i hi
  simp only [BitVec.getElem_extractLsb', getLsbD_wordOfFields]
  rw [if_pos (show 0 + i < 32 by omega)]
  simp

/-- The index of a one-index command read back (R72). -/
@[simp] theorem kaField_wordOfFields (op : BitVec 8) (k : BitVec 3) (w1 w0 : Word) :
    kaField (wordOfFields op ((0#21) ++ k) w1 w0) = k := by
  rw [kaField, extract_wordOfFields (n := 0) _ _ _ _ (by omega)]
  revert k
  decide

/-- The three indices of EXTRACT128 read back (R72). -/
theorem indexFields_wordOfFields (op : BitVec 8) (k1 k2 k3 : BitVec 3) (w1 w0 : Word) :
    kaField (wordOfFields op ((0#15) ++ k3 ++ k2 ++ k1) w1 w0) = k1 ∧
    kbField (wordOfFields op ((0#15) ++ k3 ++ k2 ++ k1) w1 w0) = k2 ∧
    kcField (wordOfFields op ((0#15) ++ k3 ++ k2 ++ k1) w1 w0) = k3 := by
  rw [kaField, kbField, kcField, extract_wordOfFields (n := 0) _ _ _ _ (by omega),
    extract_wordOfFields (n := 3) _ _ _ _ (by omega), extract_wordOfFields (n := 6) _ _ _ _ (by omega)]
  revert k1 k2 k3
  decide

/-- An encoded command has its reserved bits clear (R80). -/
theorem reservedClear_encode (i : Instr) : reservedClear i.mnemonic (encode i) = true := by
  have one : ∀ (op : BitVec 8) (k : BitVec 3), (wordOfFields op ((0#21) ++ k) 0 0).extractLsb' 35 21 = 0 := by
    intro op k
    rw [extract_wordOfFields (n := 3) _ _ _ _ (by omega)]
    revert k
    decide
  cases i with
  | reset => rfl
  | step w0 w1 =>
    simp only [Instr.mnemonic, reservedClear, encode, beq_iff_eq]
    exact extract_wordOfFields (n := 0) _ _ _ _ (by omega)
  | salt rounds noise0 noise1 => rfl
  | saltk k =>
    simp only [Instr.mnemonic, reservedClear, encode, Bool.and_eq_true, beq_iff_eq]
    exact ⟨one _ k, low_wordOfFields _ _⟩
  | absorb => rfl
  | extract32 => rfl
  | extract64 k =>
    simp only [Instr.mnemonic, reservedClear, encode, Bool.and_eq_true, beq_iff_eq]
    exact ⟨one _ k, low_wordOfFields _ _⟩
  | extract128 k1 k2 k3 =>
    simp only [Instr.mnemonic, reservedClear, encode, Bool.and_eq_true, beq_iff_eq]
    refine ⟨?_, low_wordOfFields _ _⟩
    rw [extract_wordOfFields (n := 9) _ _ _ _ (by omega)]
    revert k1 k2 k3
    decide

end Sys2Proof
end

