-- ==== Sys2Proof/Laws/Exec.lean ====
section
/-! SUPPORT. What a command and a step can do, once: a command that goes on is a RESET, a sequence of pair steps with a
response, or a refusal; a step waits or performs one command. -/

namespace Sys2Proof.Machine

/-- The state a command leaves apart from lanes and response: an ABSORB closes its window (20_memory.md R50). -/
def endCommand (i : Instr) (s : State) : State := if i = .absorb then s.closeWindow else s

@[simp] theorem endCommand_engine (i : Instr) (s : State) : (endCommand i s).engine = s.engine := by
  unfold endCommand; split <;> rfl
@[simp] theorem endCommand_config (i : Instr) (s : State) : (endCommand i s).config = s.config := by
  unfold endCommand; split <;> rfl
@[simp] theorem endCommand_cmdChan (i : Instr) (s : State) : (endCommand i s).cmdChan = s.cmdChan := by
  unfold endCommand; split <;> rfl
@[simp] theorem endCommand_blockChan (i : Instr) (s : State) : (endCommand i s).blockChan = s.blockChan := by
  unfold endCommand; split <;> rfl
@[simp] theorem endCommand_respChan (i : Instr) (s : State) : (endCommand i s).respChan = s.respChan := by
  unfold endCommand; split <;> rfl
theorem endCommand_window (i : Instr) (s : State) :
    (endCommand i s).window = if i = .absorb then [] else s.window := by
  unfold endCommand; split <;> rfl

/-- The command was executed: the engine was fed the command's input pairs and the response says OK with `data`. -/
def ExecutedBy (i : Instr) (s t : State) : Prop :=
  ∃ data, t = ((endCommand i s).withEngine (s.engine.feed stepFn (inputsOf s.config s.window i))).respond .ok data

/-- The command was refused: it has no inputs, no lane changed and the response carries the code (R171). -/
def RefusedWith (i : Instr) (s t : State) : Prop :=
  ∃ status, status ≠ .ok ∧ inputsOf s.config s.window i = [] ∧ t = (endCommand i s).refuse status

theorem checkedRounds_error {r : BitVec 24} {n0 n1 : Word} {st : Status} (h : checkedRounds r n0 n1 = .error st) :
    r = 0 ∧ st = .zeroRounds := by
  unfold checkedRounds at h
  split at h
  · cases h; exact ⟨‹_›, rfl⟩
  · cases h

theorem checkedIndex_error {t : SaltTable} {k : BitVec 3} {st : Status} (h : checkedIndex t k = .error st) :
    t.entry k = none ∧ st = .saltIndex := by
  unfold checkedIndex at h
  split at h
  · cases h
  · cases h; exact ⟨‹_›, rfl⟩

theorem checkedLong_error {t : SaltTable} {k : BitVec 3} {st : Status} (h : checkedLong t k = .error st) :
    (t.entry k = none ∧ st = .saltIndex) ∨
    (∃ salt, t.entry k = some salt ∧ ¬ salt.LongDistance ∧ st = .saltClass) := by
  unfold checkedLong at h
  split at h
  · cases h; exact .inl ⟨‹_›, rfl⟩
  · rename_i salt hs
    split at h
    · cases h
    · cases h; exact .inr ⟨salt, hs, ‹_›, rfl⟩

theorem checkedLong_ok {t : SaltTable} {k : BitVec 3} {salt : Salt} :
    checkedLong t k = .ok salt ↔ t.entry k = some salt ∧ salt.LongDistance := by
  unfold checkedLong
  constructor
  · intro h
    split at h
    · cases h
    · split at h
      · cases h; exact ⟨‹_›, ‹_›⟩
      · cases h
  · rintro ⟨h1, h2⟩
    simp only [h1, h2, if_true]

theorem checkedIndex_ok {t : SaltTable} {k : BitVec 3} {salt : Salt} (h : checkedIndex t k = .ok salt) :
    t.entry k = some salt := by
  unfold checkedIndex at h
  split at h
  · cases h; assumption
  · cases h

theorem checkedLongs_error {t : SaltTable} {k1 k2 k3 : BitVec 3} {st : Status}
    (h : checkedLongs t k1 k2 k3 = .error st) : st = .saltIndex ∨ st = .saltClass := by
  unfold checkedLongs at h
  split at h
  · split at h
    · cases h
    · cases h; exact .inr rfl
  · cases h; exact .inl rfl

theorem checkedLongs_ok {t : SaltTable} {k1 k2 k3 : BitVec 3} {a b c : Salt} :
    checkedLongs t k1 k2 k3 = .ok (a, b, c) ↔
      (t.entry k1 = some a ∧ t.entry k2 = some b ∧ t.entry k3 = some c) ∧
      a.LongDistance ∧ b.LongDistance ∧ c.LongDistance := by
  unfold checkedLongs
  constructor
  · intro h
    split at h
    · split at h
      · cases h; exact ⟨⟨‹_›, ‹_›, ‹_›⟩, ‹_›⟩
      · cases h
    · cases h
  · rintro ⟨⟨h1, h2, h3⟩, h4⟩
    simp only [h1, h2, h3, h4, and_self, if_true]

/-! ## The inputs of a command that names salts, by its check (R122, R124, R178) -/

theorem inputsOf_salt {c : Configuration} {m : Memory} {r : BitVec 24} {n0 n1 : Word} {salt : Salt}
    (h : checkedRounds r n0 n1 = .ok salt) : inputsOf c m (.salt r n0 n1) = saltInputs salt := by
  unfold checkedRounds at h
  split at h <;> cases h
  rfl

theorem inputsOf_saltk {c : Configuration} {m : Memory} {k : BitVec 3} {salt : Salt}
    (h : checkedIndex c.saltTable k = .ok salt) : inputsOf c m (.saltk k) = saltInputs salt := by
  simp only [inputsOf, checkedIndex_ok h]

theorem inputsOf_saltk_error {c : Configuration} {m : Memory} {k : BitVec 3} {st : Status}
    (h : checkedIndex c.saltTable k = .error st) : inputsOf c m (.saltk k) = [] := by
  simp only [inputsOf, (checkedIndex_error h).1]

theorem inputsOf_extract64 {c : Configuration} {m : Memory} {k : BitVec 3} {salt : Salt}
    (h : checkedLong c.saltTable k = .ok salt) : inputsOf c m (.extract64 k) = saltInputs salt := by
  obtain ⟨hk, hl⟩ := checkedLong_ok.mp h
  simp only [inputsOf, hk]
  exact if_pos hl

theorem inputsOf_extract64_error {c : Configuration} {m : Memory} {k : BitVec 3} {st : Status}
    (h : checkedLong c.saltTable k = .error st) : inputsOf c m (.extract64 k) = [] := by
  rcases checkedLong_error h with ⟨hk, -⟩ | ⟨salt, hk, hl, -⟩
  · simp only [inputsOf, hk]
  · simp only [inputsOf, hk]
    exact if_neg hl

theorem inputsOf_extract128 {c : Configuration} {m : Memory} {k1 k2 k3 : BitVec 3} {s1 s2 s3 : Salt}
    (h : checkedLongs c.saltTable k1 k2 k3 = .ok (s1, s2, s3)) :
    inputsOf c m (.extract128 k1 k2 k3) = saltInputs s1 ++ saltInputs s2 ++ saltInputs s3 := by
  obtain ⟨⟨h1, h2, h3⟩, hl⟩ := checkedLongs_ok.mp h
  simp only [inputsOf, h1, h2, h3]
  exact if_pos hl

theorem inputsOf_extract128_error {c : Configuration} {m : Memory} {k1 k2 k3 : BitVec 3} {st : Status}
    (h : checkedLongs c.saltTable k1 k2 k3 = .error st) : inputsOf c m (.extract128 k1 k2 k3) = [] := by
  cases h1 : c.saltTable.entry k1 <;> cases h2 : c.saltTable.entry k2 <;> cases h3 : c.saltTable.entry k3 <;>
    simp only [inputsOf, h1, h2, h3]
  simp only [checkedLongs, h1, h2, h3] at h
  split at h
  · cases h
  · exact if_neg ‹_›

/-- The index and the entry it names: 0 to 4 name the salts of the table, 5 to 7 none (R26, R72). -/
theorem entry_isSome_iff (t : SaltTable) (k : BitVec 3) : (t.entry k).isSome ↔ k.toNat ≤ 4 := by
  unfold SaltTable.entry
  split <;> simp_all
  omega

/-- What a command that goes on can do. -/
theorem exec_next_cases {i : Instr} {s t : State} (h : exec i s = .next t) :
    (i = .reset ∧ t = (s.withEngine Engine.seed).respond .ok 0) ∨
    (i ≠ .reset ∧ ExecutedBy i s t) ∨ (i ≠ .reset ∧ RefusedWith i s t) := by
  cases i with
  | reset =>
    simp only [exec, execReset, Host.Outcome.next.injEq] at h
    exact .inl ⟨rfl, h.symm⟩
  | step w0 w1 =>
    simp only [exec, execStep, Host.Outcome.next.injEq] at h
    exact .inr (.inl ⟨by simp, 0, by simp [endCommand, inputsOf, ← h]⟩)
  | salt r n0 n1 =>
    simp only [exec, execSalt, saltOrRefuse] at h
    cases hc : checkedRounds r n0 n1 with
    | error st =>
      simp only [hc, Host.Outcome.next.injEq] at h
      obtain ⟨rfl, rfl⟩ := checkedRounds_error hc
      exact .inr (.inr ⟨by simp, .zeroRounds, by simp, rfl, by simp [endCommand, ← h]⟩)
    | ok salt =>
      simp only [hc, Host.Outcome.next.injEq] at h
      exact .inr (.inl ⟨by simp, 0, by rw [← h, salt_eq_feed, inputsOf_salt hc]; rfl⟩)
  | saltk k =>
    simp only [exec, execSaltk, saltOrRefuse] at h
    cases hc : checkedIndex s.config.saltTable k with
    | error st =>
      simp only [hc, Host.Outcome.next.injEq] at h
      exact .inr (.inr ⟨by simp, st, by simp [(checkedIndex_error hc).2], inputsOf_saltk_error hc,
        by simp [endCommand, ← h]⟩)
    | ok salt =>
      simp only [hc, Host.Outcome.next.injEq] at h
      exact .inr (.inl ⟨by simp, 0, by rw [← h, salt_eq_feed, inputsOf_saltk hc]; rfl⟩)
  | absorb =>
    simp only [exec, execAbsorb, blockLengthOk] at h
    split at h
    · rename_i hb
      simp only [Host.Outcome.next.injEq] at h
      exact .inr (.inr ⟨by simp, .blockLength, by simp, if_neg (by simpa using hb), by rw [← h]; rfl⟩)
    · rename_i hb
      split at h
      · rename_i hi
        simp only [Host.Outcome.next.injEq] at h
        exact .inr (.inl ⟨by simp, 0, by rw [← h, inputsOf, if_pos (by simpa using hb), hi]; rfl⟩)
      · cases h
  | extract32 =>
    simp only [exec, execExtract32, Host.Outcome.next.injEq] at h
    exact .inr (.inl ⟨by simp, _, h.symm⟩)
  | extract64 k =>
    simp only [exec, execExtract64] at h
    cases hc : checkedLong s.config.saltTable k with
    | error st =>
      simp only [hc, Host.Outcome.next.injEq] at h
      have hst : st ≠ .ok := by
        rcases checkedLong_error hc with ⟨_, rfl⟩ | ⟨_, _, _, rfl⟩ <;> simp
      exact .inr (.inr ⟨by simp, st, hst, inputsOf_extract64_error hc, by simp [endCommand, ← h]⟩)
    | ok salt =>
      simp only [hc, Host.Outcome.next.injEq] at h
      exact .inr (.inl ⟨by simp, _, by rw [← h, salt_eq_feed, inputsOf_extract64 hc]; rfl⟩)
  | extract128 k1 k2 k3 =>
    simp only [exec, execExtract128] at h
    cases hc : checkedLongs s.config.saltTable k1 k2 k3 with
    | error st =>
      simp only [hc, Host.Outcome.next.injEq] at h
      have hst : st ≠ .ok := by rcases checkedLongs_error hc with rfl | rfl <;> simp
      exact .inr (.inr ⟨by simp, st, hst, inputsOf_extract128_error hc, by simp [endCommand, ← h]⟩)
    | ok salts =>
      obtain ⟨a, b, c⟩ := salts
      simp only [hc, Host.Outcome.next.injEq, salt_eq_feed, ← feed_append] at h
      exact .inr (.inl ⟨by simp, _, by rw [← h, inputsOf_extract128 hc]; simp [saltInputs, endCommand]; rfl⟩)

/-- A command changes no channel but the response channel, and no configuration (R24, R28, R77). -/
theorem exec_keeps {i : Instr} {s t : State} (h : exec i s = .next t) :
    t.config = s.config ∧ t.cmdChan = s.cmdChan ∧ t.blockChan = s.blockChan ∧
    t.window = (endCommand i s).window ∧ ∃ r, t.respChan = s.respChan ++ [r] := by
  rcases exec_next_cases h with ⟨rfl, rfl⟩ | ⟨_, d, rfl⟩ | ⟨_, st, _, _, rfl⟩
  · exact ⟨rfl, rfl, rfl, rfl, _, rfl⟩
  · exact ⟨by simp, by simp, by simp, by simp, _, by simp; rfl⟩
  · exact ⟨by simp, by simp, by simp, by simp, _, by simp; rfl⟩

/-! ## Taking a command -/

/-- What is taken and what is left on the channels (R70, R76). -/
theorem takeCommand_some {s : State} {tk : Taken} (h : s.takeCommand = some tk) :
    s.cmdChan = tk.word :: tk.rest.cmdChan ∧ tk.rest.engine = s.engine ∧ tk.rest.config = s.config ∧
    tk.rest.window = s.window ∧ tk.rest.respChan = s.respChan ∧
    ((bringsBlock tk.word = false ∧ tk.payload = none ∧ tk.rest.blockChan = s.blockChan) ∨
     (bringsBlock tk.word = true ∧ ∃ b, tk.payload = some b ∧ s.blockChan = b :: tk.rest.blockChan)) := by
  unfold State.takeCommand at h
  split at h
  · cases h
  · split at h
    · split at h
      · cases h
      · cases h; simp_all
    · cases h; simp_all

/-- A word without a block is taken at once (R70). -/
theorem takeCommand_plain {s : State} {w : CmdWord} {ws : List CmdWord} (h : s.cmdChan = w :: ws)
    (hw : bringsBlock w = false) :
    s.takeCommand = some { word := w, payload := none, rest := { s with cmdChan := ws } } := by
  simp [State.takeCommand, h, hw]

/-- A word that brings a block is taken with it (R76). -/
theorem takeCommand_block {s : State} {w : CmdWord} {ws : List CmdWord} {b : List Byte} {bs : List (List Byte)}
    (h : s.cmdChan = w :: ws) (hw : bringsBlock w = true) (hb : s.blockChan = b :: bs) :
    s.takeCommand = some { word := w, payload := some b, rest := { s with cmdChan := ws, blockChan := bs } } := by
  simp [State.takeCommand, h, hw, hb]

/-- Only an ABSORB word brings a block (R76). -/
theorem bringsBlock_of_decode {w : CmdWord} {i : Instr} (h : decode w = .ok i) :
    bringsBlock w = decide (i = .absorb) := by
  obtain ⟨h1, -, -⟩ := decode_ok_iff.mp h
  rw [bringsBlock, op_of_mnemonicOfOp h1]
  cases i <;> rfl

/-! ## The step -/

/-- What a step that goes on can do: wait, or perform the command it takes. -/
theorem step_next_cases {s t : State} (h : step s = .next t) :
    s.config.Legal ∧ ((s.takeCommand = none ∧ t = s) ∨ ∃ tk, s.takeCommand = some tk ∧ tk.perform = .next t) := by
  unfold step sequenceOne at h
  split at h
  · rename_i hl
    refine ⟨hl, ?_⟩
    cases hk : s.takeCommand with
    | none =>
      simp only [hk, Host.Outcome.next.injEq] at h
      exact .inl ⟨rfl, h.symm⟩
    | some tk =>
      simp only [hk] at h
      exact .inr ⟨tk, rfl, h⟩
  · cases h

/-- The step of a legal instance that takes a command. -/
theorem step_of_take {s : State} {tk : Taken} (hl : s.config.Legal) (h : s.takeCommand = some tk) :
    step s = tk.perform := by
  simp only [step, sequenceOne, if_pos hl, h]

/-- Performing a taken command: a word that does not decode is refused, one that decodes is executed. -/
theorem perform_next_cases {tk : Taken} {t : State} (h : tk.perform = .next t) :
    (∃ e, decode tk.word = .error e ∧ t = tk.rest.refuse e.status) ∨
    (∃ i, decode tk.word = .ok i ∧ exec i (tk.rest.openWindow tk.payload) = .next t) := by
  unfold Taken.perform at h
  cases hd : decode tk.word with
  | error e =>
    simp only [hd, Host.Outcome.next.injEq] at h
    exact .inl ⟨e, rfl, h.symm⟩
  | ok i =>
    simp only [hd] at h
    exact .inr ⟨i, rfl, h⟩

end Sys2Proof.Machine
end

