-- ==== Sys2Proof/Laws/Extract.lean ====
section
/-! SUPPORT. The digest word and its bytes as numbers (43_extract.md R150, R152). -/

namespace Sys2Proof.Machine

/-- Bits joined, the first ones high. -/
theorem append_toNat {m n : Nat} (a : BitVec m) (b : BitVec n) : (a ++ b).toNat = 2 ^ n * a.toNat + b.toNat := by
  rw [BitVec.toNat_append, ← Nat.shiftLeft_add_eq_or_of_lt b.isLt, Nat.shiftLeft_eq, Nat.mul_comm]

/-- A digest byte is the low byte of four lanes joined by exclusive or (R152). -/
theorem digestByte_toNat (a b c d : Lane) : (digestByte a b c d).toNat = (a ^^^ b ^^^ c ^^^ d).toNat % 256 := by
  have h : digestByte a b c d = (a ^^^ b ^^^ c ^^^ d).setWidth 8 := by
    simp only [digestByte, foldByte]
    ext i hi
    simp
  rw [h, BitVec.toNat_setWidth]

/-- The digest word from its four bytes, group {0,4} high (R152). -/
theorem x32_toNat (e : Engine) :
    e.x32.toNat =
      16777216 * (digestByte e.r251.l0 e.r251.l4 e.r241.l0 e.r241.l4).toNat +
      65536 * (digestByte e.r251.l1 e.r251.l5 e.r241.l1 e.r241.l5).toNat +
      256 * (digestByte e.r251.l2 e.r251.l6 e.r241.l2 e.r241.l6).toNat +
      (digestByte e.r251.l3 e.r251.l7 e.r241.l3 e.r241.l7).toNat := by
  simp only [Engine.x32, append_toNat]
  omega

end Sys2Proof.Machine
end

