-- ==== Sys2Proof/Laws/PerInstr.lean ====
section
/-! SUPPORT. Statements about every command, one lemma per constructor. OpcodeOfRow: the word of a command carries the
opcode its row of 30_encoding.md R75 matches, and that opcode names the command. -/

/-- The opcode byte of the encoded word is the top byte of its row's match and names its row (R75). -/
def Sys2Proof.Laws.OpcodeOfRow.Statement (i : Sys2Proof.Instr) : Prop :=
  Sys2Proof.opField (Sys2Proof.encode i) = Sys2Proof.opField i.mnemonic.rowMatch ∧
  Sys2Proof.mnemonicOfOp (Sys2Proof.opField (Sys2Proof.encode i)) = some i.mnemonic

namespace Sys2Proof.Laws.OpcodeOfRow

/-- The top byte of a row's match is its opcode number. -/
theorem opField_rowMatch (m : Mnemonic) : opField m.rowMatch = m.op := by cases m <;> rfl

/-- The statement for any command, from the encoder's opcode. -/
theorem of_encode (i : Instr) : Statement i := by
  simp [Statement, opField_rowMatch]

theorem reset : Statement .reset := of_encode _
theorem step (w0 w1 : Word) : Statement (.step w0 w1) := of_encode _
theorem salt (rounds : BitVec 24) (noise0 noise1 : Word) : Statement (.salt rounds noise0 noise1) := of_encode _
theorem saltk (k : BitVec 3) : Statement (.saltk k) := of_encode _
theorem absorb : Statement .absorb := of_encode _
theorem extract32 : Statement .extract32 := of_encode _
theorem extract64 (k : BitVec 3) : Statement (.extract64 k) := of_encode _
theorem extract128 (k1 k2 k3 : BitVec 3) : Statement (.extract128 k1 k2 k3) := of_encode _

end Sys2Proof.Laws.OpcodeOfRow
end

