-- ==== Sys2Proof/Laws/Serve.lean ====
section
/-! SUPPORT. Commands do not see what waits on the channels, and a run peels off one step. -/

namespace Sys2Proof.Machine

/-- What waits on the channels does not touch the command in progress (10_state.md R31, 30_encoding.md R70). -/
theorem exec_offer (i : Instr) (s t : State) (os : List Offer) (h : exec i s = .next t) :
    exec i (s.offer os) = .next (t.offer os) := by
  cases i with
  | reset => simp [exec, execReset] at h ⊢; subst h; rfl
  | step w0 w1 => simp [exec, execStep] at h ⊢; subst h; rfl
  | salt r n0 n1 =>
    simp only [exec, execSalt, saltOrRefuse] at h ⊢
    cases hc : checkedRounds r n0 n1 <;> simp [hc] at h <;> subst h <;> rfl
  | saltk k =>
    simp only [exec, execSaltk, saltOrRefuse, offer_config] at h ⊢
    cases hc : checkedIndex s.config.saltTable k <;> simp [hc] at h <;> subst h <;> rfl
  | absorb =>
    simp only [exec, execAbsorb, offer_config, offer_window] at h ⊢
    cases hb : blockLengthOk s.config.blockSize s.window with
    | true =>
      cases ha : absorbInputs s.config.blockSize s.window with
      | none => simp [ha, hb] at h
      | some ws => simp [ha, hb] at h; subst h; rfl
    | false => simp [hb] at h; subst h; rfl
  | extract32 => simp [exec, execExtract32] at h; subst h; rfl
  | extract64 k =>
    simp only [exec, execExtract64, offer_config] at h ⊢
    cases hc : checkedLong s.config.saltTable k <;> simp [hc] at h <;> subst h <;> rfl
  | extract128 k1 k2 k3 =>
    simp only [exec, execExtract128, offer_config] at h ⊢
    cases hc : checkedLongs s.config.saltTable k1 k2 k3 <;> simp [hc] at h <;> subst h <;> rfl

/-- One step of a run. -/
theorem run_succ {M : Host.Core} {k : Nat} {s s' : M.State} (h : M.step s = .next s') :
    M.run (k + 1) s = M.run k s' := by
  simp [Host.Core.run, h]

end Sys2Proof.Machine
end

