-- ==== Sys2Proof/Tests/Slice0.lean ====
section
/-! SUPPORT. The model's own tests: ill-formed terms that the check refuses, words written out from the opcode map,
single steps against 95_test_vectors.md (its numbers V<n>, derived there from the rules by an evaluator of the spec's),
and for every obligation with hypotheses a witness that meets them. -/

namespace Sys2Proof.Tests

open Sys2Proof Sys2Proof.Machine

/-! ## Helpers -/

/-- The state an outcome goes on in. -/
def goesOn (o : Host.Outcome State Fault Refusal) : Option State :=
  match o with
  | .next s => some s
  | .fault _ => none
  | .refused _ => none

/-- A fresh instance with given lanes. -/
def withLanes (a b : Lanes Lane) : State := { State.reset with engine := { r251 := a, r241 := b } }

/-- A fresh instance with block size `n` and a window holding `block`. -/
def withBlock (n : Nat) (block : List Byte) : State :=
  { State.reset with config := { blockSize := n, saltTable := referenceTable }, window := Memory.ofPayload block }

/-- A fresh instance with words and payloads waiting. -/
def withChannels (ws : List CmdWord) (bs : List (List Byte)) : State :=
  { State.reset with cmdChan := ws, blockChan := bs }

/-- The response to a command that answers `data`. -/
def okData (d : BitVec 128) : List Response := [{ status := .ok, data := d }]

/-- Lanes from 8 numbers, lane 0 first. -/
def lanes (a b c d e f g h : Nat) : Lanes Lane :=
  { l0 := BitVec.ofNat 16 a, l1 := BitVec.ofNat 16 b, l2 := BitVec.ofNat 16 c, l3 := BitVec.ofNat 16 d
    l4 := BitVec.ofNat 16 e, l5 := BitVec.ofNat 16 f, l6 := BitVec.ofNat 16 g, l7 := BitVec.ofNat 16 h }

/-! ## WellFormed -/

theorem test_wf_salt_zero_rounds : (Instr.salt 0 2 3).wellFormed = false := by decide
theorem test_wf_saltk_5 : (Instr.saltk 5).wellFormed = false := by decide
theorem test_wf_extract64_6 : (Instr.extract64 6).wellFormed = false := by decide
theorem test_wf_extract128_each_place :
    (Instr.extract128 5 0 0).wellFormed = false ∧ (Instr.extract128 0 6 0).wellFormed = false ∧
    (Instr.extract128 0 0 7).wellFormed = false := by decide
theorem test_wf_accepts :
    (Instr.salt 1 0 0).wellFormed = true ∧ (Instr.saltk 4).wellFormed = true ∧
    (Instr.extract64 4).wellFormed = true ∧ (Instr.extract128 4 4 4).wellFormed = true := by decide

/-! ## Decoding: words written out from 30_encoding.md R71, R72, R75 -/

/-- RESET, `OP = 00000001`, 56 zero bits. -/
theorem test_decode_reset :
    decodeTableWord 64 0b0000000100000000000000000000000000000000000000000000000000000000 = some .reset := by decide
/-- STEP, `OP = 00000010`, 24 zero bits, `W1 = 0xABCD`, `W0 = 0x1234` (V3). -/
theorem test_decode_step :
    decodeTableWord 64 0b0000001000000000000000000000000010101011110011010001001000110100 =
      some (.step 0x1234#16 0xABCD#16) := by decide
/-- SALT, `OP = 00000011`, `ROUNDS = 24`, `W1 = 11`, `W0 = 8` (V17). -/
theorem test_decode_salt :
    decodeTableWord 64 0b0000001100000000000000000001100000000000000010110000000000001000 =
      some (.salt 24#24 8#16 11#16) := by decide
/-- SALTK, `OP = 00000100`, 21 zero bits, `KA = 011`, 32 zero bits (V19). -/
theorem test_decode_saltk :
    decodeTableWord 64 0b0000010000000000000000000000001100000000000000000000000000000000 = some (.saltk 3#3) := by
  decide
/-- ABSORB, `OP = 00000101`, 56 zero bits. -/
theorem test_decode_absorb :
    decodeTableWord 64 0b0000010100000000000000000000000000000000000000000000000000000000 = some .absorb := by decide
/-- EXTRACT32, `OP = 00000110`, 56 zero bits. -/
theorem test_decode_extract32 :
    decodeTableWord 64 0b0000011000000000000000000000000000000000000000000000000000000000 = some .extract32 := by
  decide
/-- EXTRACT64, `OP = 00000111`, `KA = 010` (V36). -/
theorem test_decode_extract64 :
    decodeTableWord 64 0b0000011100000000000000000000001000000000000000000000000000000000 =
      some (.extract64 2#3) := by decide
/-- EXTRACT128, `OP = 00001000`, 15 zero bits, `KC = 100`, `KB = 011`, `KA = 010` (V37). -/
theorem test_decode_extract128 :
    decodeTableWord 64 0b0000100000000000000000010001101000000000000000000000000000000000 =
      some (.extract128 2#3 3#3 4#3) := by decide
/-- V40 to V45, V49, V50, V53, V60: words that spell no command. -/
theorem test_decode_refused :
    decode 0x0000000000000000#64 = .error .illegalOpcode ∧ decode 0xFFFFFFFFFFFFFFFF#64 = .error .illegalOpcode ∧
    decode 0x0900000000000000#64 = .error .illegalOpcode ∧ decode 0x0900000000000001#64 = .error .illegalOpcode ∧
    decode 0x0100000000000001#64 = .error .reservedField ∧ decode 0x0200000100000000#64 = .error .reservedField ∧
    decode 0x0400000800000000#64 = .error .reservedField ∧ decode 0x0400000000000001#64 = .error .reservedField ∧
    decode 0x0600000000010000#64 = .error .reservedField ∧ decode 0x0800020000000000#64 = .error .reservedField :=
  ⟨rfl, rfl, rfl, rfl, rfl, rfl, rfl, rfl, rfl, rfl⟩

/-! ## One command each -/

/-- V1: RESET from the largest residues gives the seed, lane 0 and lane 4 one, the others zero. -/
theorem test_reset :
    (goesOn (exec .reset (withLanes (lanes 250 250 250 250 250 250 250 250)
      (lanes 240 240 240 240 240 240 240 240)))).map (·.engine) =
      some { r251 := lanes 1 0 0 0 1 0 0 0, r241 := lanes 1 0 0 0 1 0 0 0 } := by decide
/-- V9b: the largest value before reduction. -/
theorem test_step_largest :
    (goesOn (exec (.step 0xFFFF 0xFFFF) (withLanes (lanes 250 250 250 250 250 250 250 250)
      (lanes 240 240 240 240 240 240 240 240)))).map (·.engine) =
      some { r251 := lanes 17 249 244 250 20 249 247 248
             r241 := lanes 211 238 235 230 217 240 230 239 } := by decide
/-- V9e: the halves of a Register are independent. -/
theorem test_step_halves :
    (goesOn (exec (.step 0 0) (withLanes (lanes 0 0 0 1 0 0 0 0) (lanes 0 0 0 0 0 0 0 1)))).map (·.engine) =
      some { r251 := lanes 7 1 6 0 0 0 0 0, r241 := lanes 0 0 0 0 7 0 10 1 } := by decide
/-- V15: SALT 7, 2, 3 from the seed. -/
theorem test_salt :
    (goesOn (exec (.salt 7 2 3) State.reset)).map (·.engine) =
      some { r251 := lanes 107 73 114 59 166 95 154 131
             r241 := lanes 55 118 227 49 182 122 149 240 } := by decide
/-- V46: SALT 0, 2, 3. -/
theorem test_salt_zero_rounds :
    (goesOn (exec (.salt 0 2 3) State.reset)).map (·.respChan) =
      some [{ status := .zeroRounds, data := 0 }] := by decide
/-- V16 through SALTK 1 with the reference table. -/
theorem test_saltk :
    (goesOn (exec (.saltk 1) State.reset)).map (·.engine) =
      some { r251 := lanes 74 42 75 29 80 47 71 61, r241 := lanes 204 110 0 227 182 63 23 112 } := by decide
/-- V48: SALTK 5. -/
theorem test_saltk_5 :
    (goesOn (exec (.saltk 5) State.reset)).map (fun s => (s.engine, s.respChan)) =
      some (Engine.seed, [{ status := .saltIndex, data := 0 }]) := by decide
/-- V28: ABSORB of eight bytes. -/
theorem test_absorb_8 :
    (goesOn (exec .absorb (withBlock 8 [1, 2, 3, 4, 5, 6, 7, 8]))).map (fun s => (s.engine, s.window)) =
      some ({ r251 := lanes 173 217 250 233 59 56 130 57
              r241 := lanes 173 158 109 133 150 57 212 226 }, []) := by decide
/-- V24a: ABSORB of one byte: no main pass, no boundary pass. -/
theorem test_absorb_1 :
    (goesOn (exec .absorb (withBlock 1 [0x41]))).map (·.engine) =
      some { r251 := lanes 139 1 0 0 139 1 0 0, r241 := lanes 76 1 0 0 76 1 0 0 } := by decide
/-- V32: EXTRACT32, group {0,4} most significant. -/
theorem test_extract32 :
    (goesOn (exec .extract32 (withLanes (lanes 7 1 6 0 4 1 3 2) (lanes 13 2 5 10 7 0 10 1)))).map (·.respChan) =
      some (okData 0x09020A09) := by decide
/-- V34: a fold byte can be 255. -/
theorem test_extract32_fold :
    (goesOn (exec .extract32 (withLanes (lanes 250 0 250 5 5 0 0 250) (lanes 0 0 0 0 0 0 0 0)))).map (·.respChan) =
      some (okData 0xFF00FAFF) := by decide
/-- V36: EXTRACT64 2. -/
theorem test_extract64 :
    (goesOn (exec (.extract64 2) (withLanes (lanes 185 117 141 180 126 219 55 5)
      (lanes 165 234 96 73 122 180 142 87)))).map (fun s => (s.engine, s.respChan)) =
      some ({ r251 := lanes 69 77 136 92 66 72 82 57, r241 := lanes 84 183 179 130 90 33 122 125 },
        okData 0x18F054AF0993139A) := by decide
/-- V54: EXTRACT64 0, a salt of seven rounds. -/
theorem test_extract64_class :
    (goesOn (exec (.extract64 0) State.reset)).map (·.respChan) =
      some [{ status := .saltClass, data := 0 }] := by decide
set_option maxRecDepth 4000 in
/-- V37: EXTRACT128 2, 3, 4. -/
theorem test_extract128 :
    (goesOn (exec (.extract128 2 3 4) (withLanes (lanes 185 117 141 180 126 219 55 5)
      (lanes 165 234 96 73 122 180 142 87)))).map (fun s => (s.engine, s.respChan)) =
      some ({ r251 := lanes 1 176 202 68 211 188 155 70, r241 := lanes 100 217 8 109 215 151 181 177 },
        okData 0x18F054AF0993139A0A635BE86142ECDE) := by decide
/-- V56: an index out of range is reported before a class. -/
theorem test_extract128_index_first :
    (goesOn (exec (.extract128 0 3 6) State.reset)).map (·.respChan) =
      some [{ status := .saltIndex, data := 0 }] := by decide

/-! ## Steps -/

/-- The first step after reset runs a STEP word (V3). -/
theorem test_step_from_reset :
    (goesOn (step (State.reset.withFetchWord 64 0x02000000ABCD1234))).map (fun s => (s.engine, s.respChan)) =
      some ({ r251 := lanes 142 1 0 0 142 1 0 0, r241 := lanes 119 1 0 0 119 1 0 0 }, okData 0) := by decide
/-- The first step after reset runs an ABSORB word with its block of `N = 4` zero bytes (V26c). -/
theorem test_absorb_from_reset :
    (goesOn (step (State.reset.withFetchWord 64 0x0500000000000000))).map (·.engine) =
      some { r251 := lanes 42 6 43 1 28 15 27 21, r241 := lanes 160 99 76 138 77 7 117 21 } := by decide
/-- V51: a payload of N - 1 bytes is refused and discarded, and the next word is still there. -/
theorem test_block_length :
    goesOn (step (withChannels [0x0500000000000000, 0x0100000000000000] [[1, 2, 3], [9]])) =
      some { State.reset with
        cmdChan := [0x0100000000000000], blockChan := [[9]]
        respChan := [{ status := .blockLength, data := 0 }] } := by decide
/-- V52: an ABSORB word with a reserved bit is refused and its payload discarded. -/
theorem test_absorb_reserved :
    goesOn (step (withChannels [0x0500000000000004] [[1, 2, 3, 4]])) =
      some { State.reset with respChan := [{ status := .reservedField, data := 0 }] } := by decide

/-! ## Witnesses: for every obligation with hypotheses, values that meet them, at the boundaries of each clause -/

/-- An outcome goes on with an OK response carrying `d`. -/
def answersOk (o : Host.Outcome State Fault Refusal) (s : State) (d : BitVec 128) : Bool :=
  decide ((goesOn o).map (·.respChan) = some (s.respChan ++ okData d))

theorem witness_OnlyTheEncodingDecodesToACommand : decode 0x0700000200000000#64 = .ok (.extract64 2) := rfl

theorem witness_DecoderAgreesWithMaskAndMatch :
    selectsRow .saltk 0x0400000700000000#64 = true ∧ selectsRow .salt 0x03FFFFFFFFFFFFFF#64 = true := by decide

theorem witness_IllegalOpcodeWordsAreRefused :
    (withChannels [0x00FFFFFFFFFFFFFF] []).config.Legal ∧ (withChannels [0x0900000000000001] []).config.Legal ∧
    ((0x00FFFFFFFFFFFFFF#64 : CmdWord).extractLsb' 56 8).toNat = 0 ∧
    9 ≤ ((0x0900000000000001#64 : CmdWord).extractLsb' 56 8).toNat := by decide

theorem witness_ReservedFieldWordsAreRefused :
    (withChannels [0x0100000000000001] []).config.Legal ∧ decode 0x0100000000000001#64 = .error .reservedField ∧
    (0x0100000000000001#64 : CmdWord).extractLsb' 56 8 ≠ 5#8 ∧
    (withChannels [0x0580000000000000] [[1, 2, 3, 4]]).config.Legal ∧
    decode 0x0580000000000000#64 = .error .reservedField ∧
    (0x0580000000000000#64 : CmdWord).extractLsb' 56 8 = 5#8 ∧
    (withChannels [0x0580000000000000] [[1, 2, 3, 4]]).blockChan = [1, 2, 3, 4] :: [] :=
  ⟨by decide, rfl, by decide, by decide, rfl, by decide, rfl⟩

theorem witness_InputWordCountsThroughItsResidue :
    (0#16 : Word).toNat % 251 = (251#16 : Word).toNat % 251 ∧
    (65535#16 : Word).toNat % 241 = (224#16 : Word).toNat % 241 := by decide

theorem witness_WrappingAdderDiffersOnlyAboveTheBound :
    (62415#16 : Word).toNat ≤ 62415 ∧ (lanes 0 0 0 0 0 0 0 0).Below 251 ∧
    (lanes 250 0 0 250 0 0 0 250).Below 251 ∧ (lanes 240 0 0 240 0 0 0 240).Below 241 ∧
    65536 ≤ (63786#16 : Word).toNat + (lanes 250 0 0 250 0 0 0 250).l3.toNat * 7 ∧
    65536 ≤ (64536#16 : Word).toNat + (lanes 250 0 0 250 0 0 0 250).l7.toNat * 4 ∧
    65536 ≤ (62416#16 : Word).toNat + (lanes 240 0 0 240 0 0 0 240).l3.toNat * 13 ∧
    65536 ≤ (63856#16 : Word).toNat + (lanes 240 0 0 240 0 0 0 240).l7.toNat * 7 := by decide

/-- A step function that keeps residues and gives none from other values: a Register keeps what it holds. -/
theorem witness_ResiduesAreKeptUnderEveryStepFunction :
    StepFn.KeepsResidues (fun _ s _ => s) ∧ Engine.seed.Residues :=
  ⟨fun _ _ => ⟨fun h => h, fun h => h⟩, by decide⟩

theorem witness_SaltCommandStepsEachRegisterRoundsTimes :
    (1#24 : BitVec 24) ≠ 0 ∧ (16777215#24 : BitVec 24) ≠ 0 := by decide

theorem witness_SaltsOfEqualNoiseAdd :
    (1#24 : BitVec 24) ≠ 0 ∧ (16777214#24 : BitVec 24) ≠ 0 ∧
    (1#24 : BitVec 24).toNat + (16777214#24 : BitVec 24).toNat ≤ roundsMax := by decide

theorem witness_NoiseWordsCountThroughTheirResidues :
    (65284#16 : Word).toNat + 251 ≤ 65535 ∧ (65294#16 : Word).toNat + 241 ≤ 65535 := by decide

theorem witness_NamedSaltIsSaltOfItsEntry :
    State.reset.config.saltTable.Legal ∧ (0#3 : BitVec 3).toNat ≤ 4 ∧ (4#3 : BitVec 3).toNat ≤ 4 := by decide

theorem witness_IndicesThatNameNoSaltAreRefused :
    4 < (5#3 : BitVec 3).toNat ∧ 4 < (7#3 : BitVec 3).toNat := by decide

theorem witness_BlockReadsAreLittleEndian :
    ([1, 2, 3] : List Byte)[2]? = some 3 ∧ ([1, 2, 3] : List Byte).length ≤ 3 ∧
    ([1, 2, 3] : List Byte)[1]? = some 2 ∧ ([1, 2, 3] : List Byte)[1 + 1]? = some 3 ∧
    ([1, 2, 3] : List Byte).length ≤ 2 + 1 := by decide

theorem witness_BlockWindowStaysCanonical :
    (withBlock 4 [1, 2, 3, 4]).window.wf ∧ ∃ t, step (withBlock 4 [1, 2, 3, 4]) = .next t := ⟨by decide, _, rfl⟩

/-- A block of each shape: one byte, two bytes, four bytes. -/
theorem witness_AbsorbFeedsTheBlockFromBothEnds :
    (BlockSizeLegal (withBlock 1 [7]).config.blockSize ∧ ([7] : List Byte).length = 1 ∧
      (withBlock 1 [7]).window = Memory.ofPayload [7]) ∧
    (BlockSizeLegal (withBlock 2 [7, 8]).config.blockSize ∧ ([7, 8] : List Byte).length = 2 ∧
      (withBlock 2 [7, 8]).window = Memory.ofPayload [7, 8]) ∧
    (BlockSizeLegal (withBlock 4 [7, 8, 9, 10]).config.blockSize ∧ ([7, 8, 9, 10] : List Byte).length = 4 ∧
      (withBlock 4 [7, 8, 9, 10]).window = Memory.ofPayload [7, 8, 9, 10]) := by decide

theorem witness_AbsorbEqualsASequenceOfSteps :
    BlockSizeLegal (withBlock 2 []).config.blockSize ∧
    ([7, 8] : List Byte).length = (withBlock 2 []).config.blockSize := by decide

theorem witness_AbsorbNeverReadsOutsideTheWindow :
    (2 % 2 = 0 ∧ 2 ≤ 2 ∧ 0 ≤ 2 / 2 - 1) ∧ (8 % 2 = 0 ∧ 2 ≤ 8 ∧ 3 ≤ 8 / 2 - 1) ∧ (4 % 2 = 0 ∧ 4 ≤ 4) ∧
    BlockSizeLegal (withBlock 1 [7]).config.blockSize ∧ ([7] : List Byte).length = (withBlock 1 [7]).config.blockSize ∧
    (withBlock 1 [7]).window = Memory.ofPayload [7] := by decide

theorem witness_MainPassIsMirrored :
    BlockSizeLegal ([1, 2, 3, 4] : List Byte).length ∧ 0 < ([1, 2, 3, 4] : List Byte).length / 2 ∧
    1 < ([1, 2, 3, 4] : List Byte).length / 2 := by decide

theorem witness_BlocksOfAnotherLengthAreRefused :
    ([1, 2, 3] : List Byte).length ≠ State.reset.config.blockSize ∧
    ([1, 2, 3, 4, 5] : List Byte).length ≠ State.reset.config.blockSize ∧
    ([] : List Byte).length ≠ State.reset.config.blockSize := by decide

theorem witness_FoldCutsNothingOff : 251 ≤ 251 ∧ (lanes 250 250 250 250 250 250 250 250).Below 251 := by decide

/-- A table whose first entry is the shortest long-distance salt and whose second is one round shorter. -/
def boundaryTable : SaltTable :=
  { referenceTable with
    s0 := { rounds := 24, noise0 := 8, noise1 := 11 }
    s1 := { rounds := 23, noise0 := 1, noise1 := 2 } }

/-- A fresh instance with that table. -/
def boundaryState : State := State.fresh { blockSize := 4, saltTable := boundaryTable }

theorem witness_ExtractTwoWordsAroundASalt :
    boundaryState.config.saltTable.entry 0 = some boundaryTable.s0 ∧ 24 ≤ boundaryTable.s0.rounds := by decide

theorem witness_ExtractFourWordsAroundThreeSalts :
    boundaryState.config.saltTable.entry 0 = some boundaryTable.s0 ∧
    boundaryState.config.saltTable.entry 2 = some boundaryTable.s2 ∧
    boundaryState.config.saltTable.entry 4 = some boundaryTable.s4 ∧
    24 ≤ boundaryTable.s0.rounds ∧ 24 ≤ boundaryTable.s2.rounds ∧ 24 ≤ boundaryTable.s4.rounds := by decide

theorem witness_ShortSaltsAreRefusedBetweenWords :
    boundaryState.config.saltTable.entry 1 = some boundaryTable.s1 ∧ boundaryTable.s1.rounds < 24 ∧
    boundaryState.config.saltTable.entry 0 = some boundaryTable.s0 ∧
    boundaryState.config.saltTable.entry 4 = some boundaryTable.s4 ∧
    (goesOn (exec (.extract64 1) boundaryState)).map (·.respChan) =
      some (boundaryState.respChan ++ [{ status := .saltClass, data := 0 }]) := by decide

theorem witness_CompositeExtractionsEqualTheirSequences :
    boundaryState.config.saltTable.entry 0 = some boundaryTable.s0 ∧ 24 ≤ boundaryTable.s0.rounds ∧
    boundaryState.config.saltTable.entry 2 = some boundaryTable.s2 ∧ 24 ≤ boundaryTable.s2.rounds ∧
    boundaryState.config.saltTable.entry 3 = some boundaryTable.s3 ∧ 24 ≤ boundaryTable.s3.rounds := by decide

theorem witness_DigestWordIsZeroUntilTheFourthStep :
    (∀ r ∈ [lanes 142 1 0 0 142 1 0 0, lanes 119 1 0 0 119 1 0 0],
      r.l0 = r.l4 ∧ r.l1 = r.l5 ∧ r.l2 = r.l6 ∧ r.l3 = r.l7) ∧
    ([(65535, 0), (1, 2), (251, 241)] : List (Word × Word)).length ≤ 3 := by decide

theorem witness_EveryStateChangeIsASequenceOfPairSteps :
    Instr.absorb ≠ .reset ∧ (goesOn (exec .absorb (withBlock 1 [7]))).isSome = true := by decide

theorem witness_RegistersAdvanceInLockstep :
    BlockSizeLegal (withBlock 4 [1, 2, 3, 4]).config.blockSize ∧
    answersOk (exec .absorb (withBlock 4 [1, 2, 3, 4])) (withBlock 4 [1, 2, 3, 4]) 0 = true ∧
    answersOk (exec .reset State.reset) State.reset 0 = true ∧
    (goesOn (exec (.extract64 0) State.reset)).map (·.respChan) =
      some (State.reset.respChan ++ [{ status := .saltClass, data := 0 }]) := by decide

/-- V54: a refused EXTRACT64 feeds nothing; V28: an ABSORB of eight bytes feeds the words of R131 to R135. -/
theorem test_inputs :
    inputsOf resetConfiguration [] (.extract64 0) = [] ∧
    inputsOf { blockSize := 8, saltTable := referenceTable } (Memory.ofPayload [1, 2, 3, 4, 5, 6, 7, 8]) .absorb =
      [(0x0201, 0x0807), (0x0403, 0x0605), (0x0605, 0x0403), (0x0807, 0x0201), (0x0302, 0x0706), (0x0302, 0x0706),
        (0x0302, 0x0706), (0x0101, 0x0101)] := by decide

theorem witness_RegistersNeverReadEachOther :
    (withLanes (lanes 1 2 3 4 5 6 7 8) (lanes 0 0 0 0 0 0 0 0)).config = State.reset.config ∧
    (withLanes (lanes 1 2 3 4 5 6 7 8) (lanes 0 0 0 0 0 0 0 0)).window = State.reset.window ∧
    (withLanes (lanes 1 2 3 4 5 6 7 8) (lanes 0 0 0 0 0 0 0 0)).engine.r251 =
      (withLanes (lanes 1 2 3 4 5 6 7 8) (lanes 9 9 9 9 9 9 9 9)).engine.r251 ∧
    (goesOn (exec (.step 1 2) (withLanes (lanes 1 2 3 4 5 6 7 8) (lanes 0 0 0 0 0 0 0 0)))).isSome = true ∧
    (goesOn (exec (.step 1 2) (withLanes (lanes 1 2 3 4 5 6 7 8) (lanes 9 9 9 9 9 9 9 9)))).isSome = true := by decide

theorem witness_ResultsDependOnLanesConfigurationAndOperands :
    (withChannels [0] []).engine = State.reset.engine ∧ (withChannels [0] []).config = State.reset.config ∧
    (withChannels [0] []).window = State.reset.window ∧
    (goesOn (exec (.saltk 3) (withChannels [0] []))).isSome = true := by decide

theorem witness_CommandsChangeOnlyLanesAndResponses :
    (goesOn (exec .absorb (withBlock 2 [1, 2]))).isSome = true ∧ (goesOn (exec .extract32 State.reset)).isSome = true ∧
    (goesOn (exec (.extract64 7) (withBlock 2 [1, 2]))).isSome = true := by decide

theorem witness_StepRunsTheDecodedCommand :
    (withChannels [0x0600000000000000] []).config.Legal ∧ decode 0x0600000000000000#64 = .ok .extract32 ∧
    (withChannels [0x0500000000000000] [[1, 2, 3, 4]]).config.Legal ∧ decode 0x0500000000000000#64 = .ok .absorb ∧
    (withChannels [0x0500000000000000] [[1, 2, 3, 4]]).blockChan = [1, 2, 3, 4] :: [] :=
  ⟨by decide, rfl, by decide, rfl, rfl⟩

theorem witness_CoreWaitsForItsCommand :
    State.reset.config.Legal ∧ State.reset.cmdChan = [] ∧
    (withChannels [0x0500000000000000] []).config.Legal ∧
    (0x0500000000000000#64 : CmdWord).extractLsb' 56 8 = 5#8 ∧
    (withChannels [0x0500000000000000] []).blockChan = [] := by decide

theorem witness_RefusedCommandsChangeNothing :
    (withChannels [0x0400000500000000] []).window = [] ∧
    (goesOn (step (withChannels [0x0400000500000000] []))).map (·.respChan) =
      some ((withChannels [0x0400000500000000] []).respChan ++ [{ status := .saltIndex, data := 0 }]) ∧
    (withChannels [0x0500000000000000] [[1]]).window = [] ∧
    (goesOn (step (withChannels [0x0500000000000000] [[1]]))).map (·.respChan) =
      some ((withChannels [0x0500000000000000] [[1]]).respChan ++ [{ status := .blockLength, data := 0 }]) := by decide

theorem witness_EveryCommandGetsOneResponse :
    (withChannels [0x0700000200000000] []).config.Legal ∧
    (withChannels [0x0700000200000000] []).takeCommand ≠ none ∧
    answersOk (step (withChannels [0x0700000200000000] [])) State.reset
      ((Engine.seed.x32 ++ (Engine.seed.salt stepFn referenceTable.s2).x32).setWidth 128) = true := by decide

theorem witness_StatusFollowsTheDecodingOrder :
    (withChannels [0x0800019800000000] []).config.Legal ∧
    (withChannels [0x0800019800000000] []).takeCommand ≠ none ∧
    verdict resetConfiguration 0x0800019800000000 0 = .saltIndex ∧
    verdict resetConfiguration 0x0800001A00000000 0 = .saltClass ∧
    verdict resetConfiguration 0x0300000000030002 0 = .zeroRounds ∧
    verdict resetConfiguration 0x0500000000000004 4 = .reservedField ∧
    verdict resetConfiguration 0x0900000000000001 0 = .illegalOpcode ∧
    verdict resetConfiguration 0x0500000000000000 3 = .blockLength ∧
    verdict resetConfiguration 0x0500000000000000 4 = .ok := by decide

theorem witness_NoCommandFaults :
    (withChannels [0x0500000000000000] [[1, 2, 3, 4]]).config.Legal ∧
    (withChannels [0x0500000000000000] [[1, 2, 3, 4]]).config =
      (withChannels [0x0500000000000000] [[0, 0, 0, 9]]).config ∧
    ((withChannels [0x0500000000000000] [[1, 2, 3, 4]]).takeCommand.map
      fun tk => (tk.word, (tk.payload.getD []).length)) = some (0x0500000000000000, 4) ∧
    ((withChannels [0x0500000000000000] [[0, 0, 0, 9]]).takeCommand.map
      fun tk => (tk.word, (tk.payload.getD []).length)) = some (0x0500000000000000, 4) := by decide

theorem witness_StepKeepsTheInvariant :
    (withChannels [0x0500000000000000] [[1, 2, 3, 4]]).Inv ∧
    ∃ t, step (withChannels [0x0500000000000000] [[1, 2, 3, 4]]) = .next t := ⟨by decide, _, rfl⟩

theorem witness_FreshInstancesMeetTheInvariant :
    (State.construct { blockSize := 1, saltTable := referenceTable }).isSome = true ∧
    (State.construct { blockSize := 2, saltTable := boundaryTable }).isSome = true := by decide

theorem witness_ConfigurationIsReadOnly : ∃ t, step (withChannels [0x0100000000000000] []) = .next t := ⟨_, rfl⟩

theorem witness_IllegalConfigurationsDoNotRun :
    State.construct (withBlock 3 []).config = none ∧ State.construct (withBlock 0 []).config = none ∧
    ¬ (withBlock 3 []).config.Legal ∧ (withBlock 3 []).config.blockSize % 2 = 1 ∧
    (withBlock 3 []).config.blockSize ≠ 1 ∧ (withBlock 0 []).config.blockSize = 0 ∧
    SaltTable.entry { referenceTable with s4 := { rounds := 0, noise0 := 1, noise1 := 1 } } 4 =
      some { rounds := 0, noise0 := 1, noise1 := 1 } ∧ referenceTable.Legal := by decide

theorem witness_ChannelsServeOffersInOrder :
    State.reset.config.Legal ∧ State.reset.cmdChan = [] ∧ State.reset.blockChan = [] ∧
    (∀ o ∈ [Offer.absorb [1, 2, 3, 4], Offer.plain (.salt 2 3 4), Offer.plain .extract32],
      o.payload.isSome = decide (o.instr = .absorb)) ∧
    (goesOn (serve [Offer.absorb [1, 2, 3, 4], Offer.plain (.salt 2 3 4), Offer.plain .extract32]
      State.reset)).isSome = true := by decide

theorem witness_BlocksAreThePaddedFile :
    1 ≤ 4 ∧ ([1, 2, 3, 4] : List Byte).length % 4 = 0 ∧ blocksOf 4 [1, 2, 3, 4] = [[1, 2, 3, 4]] ∧
    blocksOf 4 [1, 2, 3, 4, 0] = [[1, 2, 3, 4], [0, 0, 0, 0]] := by decide

/-- A schedule of sequential chaining that meets its duties: free salts and named ones, a short one before a long one. -/
def exampleSchedule : SaltSchedule :=
  { pre := fun _ => [.named 0]
    post := fun len => [.immediate 6 (BitVec.ofNat 16 len) (BitVec.ofNat 16 (len % 31))]
    beforeWord1 := fun len => [.named (if len % 2 = 0 then 2 else 3)]
    beforeWord2 := fun _ => [.named 1, .immediate 24 8 11]
    beforeWord3 := fun _ => [.named 4] }

/-- An XOR-fold schedule that meets its duties, with EXTRACT128 or four EXTRACT32 by the parity of the length. -/
def exampleFold : FoldSchedule :=
  { pre := fun len => [.immediate 6 (BitVec.ofNat 16 len) (BitVec.ofNat 16 (len % 31))]
    post := fun _ => [.named 1]
    reading := fun len =>
      if len % 2 = 0 then .composite 2 3 4 else .words [.named 2] [.named 1, .immediate 24 8 11] [.named 4] }

/-- The readings of both schedules for a length of one byte and of two bytes (R215). -/
theorem test_readings_are_dutiful :
    (exampleSchedule.reading 1).Dutiful referenceTable ∧ (exampleFold.reading 1).Dutiful referenceTable ∧
    (exampleFold.reading 2).Dutiful referenceTable :=
  ⟨⟨by decide, ⟨_, List.Mem.head _, 29, rfl, by decide⟩, ⟨_, List.Mem.tail _ (List.Mem.head _), 24, rfl, by decide⟩,
      ⟨_, List.Mem.head _, 37, rfl, by decide⟩⟩,
    ⟨by decide, ⟨_, List.Mem.head _, 31, rfl, by decide⟩, ⟨_, List.Mem.tail _ (List.Mem.head _), 24, rfl, by decide⟩,
      ⟨_, List.Mem.head _, 37, rfl, by decide⟩⟩, ⟨_, rfl⟩⟩

theorem witness_StrategiesFollowTheProtocol :
    1 ≤ 4 ∧ ([1] : List Byte) ≠ [] ∧ exampleSchedule.Dutiful referenceTable 1 ∧
    exampleFold.Dutiful referenceTable 1 ∧ exampleFold.Dutiful referenceTable 2 :=
  ⟨by decide, by decide,
    ⟨by decide, by decide, by decide, by decide, test_readings_are_dutiful.1⟩,
    ⟨by decide, by decide, by decide, test_readings_are_dutiful.2.1⟩,
    ⟨by decide, by decide, by decide, test_readings_are_dutiful.2.2⟩⟩

theorem witness_BothStrategiesEndInADigest :
    resetConfiguration.Legal ∧ ([1] : List Byte) ≠ [] ∧ exampleSchedule.Dutiful resetConfiguration.saltTable 1 ∧
    exampleFold.Dutiful resetConfiguration.saltTable 1 ∧ exampleFold.Dutiful resetConfiguration.saltTable 2 :=
  ⟨by decide, by decide, witness_StrategiesFollowTheProtocol.2.2⟩

/-- Two lengths with one count of blocks of four bytes differ by less than four. -/
theorem test_lengths_of_one_block_count {a b : Nat} (h : (a + 4 - 1) / 4 = (b + 4 - 1) / 4)
    (hab : BitVec.ofNat 16 a = BitVec.ofNat 16 b) : a = b := by
  have h' := congrArg BitVec.toNat hab
  simp only [BitVec.toNat_ofNat] at h'
  omega

/-- The example schedules tell padding apart in blocks of four bytes: the length stands in their SALT (R217). -/
theorem test_examples_tell_padding_apart :
    TellsPaddingApart exampleSchedule.saltsAt 4 ∧ TellsPaddingApart exampleFold.saltsAt 4 := by
  constructor <;> intro a b _ _ hab h heq
  · simp [freeSalts, SaltSchedule.saltsAt, SaltSchedule.reading, Reading.salts, exampleSchedule,
      List.filterMap_cons, SaltUse.parameters] at heq
    exact hab (test_lengths_of_one_block_count h heq.1)
  · simp [freeSalts, FoldSchedule.saltsAt, exampleFold, SaltUse.parameters] at heq
    exact hab (test_lengths_of_one_block_count h heq.1.1)

/-- A schedule that does not use the length has the same salts for two lengths. -/
theorem witness_OnlyTheScheduleTellsPaddingFromData :
    1 ≤ 4 ∧ ([1, 2, 3] : List Byte).length % 4 ≠ 0 ∧ blocksOf 4 [1, 2, 3] = blocksOf 4 [1, 2, 3, 0] ∧
    { exampleSchedule with post := fun _ => [.named 1], beforeWord1 := fun _ => [.named 2] }.saltsAt 3 =
      { exampleSchedule with post := fun _ => [.named 1], beforeWord1 := fun _ => [.named 2] }.saltsAt 4 ∧
    exampleFold.post 3 = exampleFold.post 4 ∧ exampleFold.pre 3 ≠ exampleFold.pre 4 ∧
    exampleFold.pre 3 = exampleFold.pre (3 + 31 * 65536) ∧
    exampleFold.reading 3 = exampleFold.reading (3 + 2 * 31 * 65536) ∧
    TellsPaddingApart exampleSchedule.saltsAt 4 ∧ TellsPaddingApart exampleFold.saltsAt 4 :=
  ⟨by decide, by decide, by decide, by decide, by decide, by decide, by decide, by decide,
    test_examples_tell_padding_apart⟩

/-- The example schedules meet the duties of 70_reset_and_hazards.md R216 and R217 too. -/
theorem test_schedule_duties :
    LengthDerived exampleSchedule.saltsAt ∧ exampleSchedule.KeyedByParityAndResidue ∧
    exampleSchedule.ParitySeparates ∧ LengthDerived exampleFold.saltsAt := by
  have hne : ∀ len, (6#24, BitVec.ofNat 16 len, BitVec.ofNat 16 (len % 31)) ≠
      (6#24, BitVec.ofNat 16 (len + 1), BitVec.ofNat 16 ((len + 1) % 31)) := fun len h => by
    have h' := congrArg (fun p => p.2.1.toNat) h
    simp only [BitVec.toNat_ofNat] at h'
    omega
  refine ⟨⟨1, 0, fun len => (6#24, BitVec.ofNat 16 len, BitVec.ofNat 16 (len % 31)), fun len =>
      ⟨⟨_, _, rfl, rfl, rfl⟩, hne len⟩⟩, fun a b h _ => ?_, fun a b ha hb => ?_,
    ⟨0, 0, fun len => (6#24, BitVec.ofNat 16 len, BitVec.ofNat 16 (len % 31)), fun len =>
      ⟨⟨_, _, rfl, rfl, rfl⟩, hne len⟩⟩⟩
  · simp [SaltSchedule.reading, exampleSchedule, h]
  · simp [SaltSchedule.namedBetween, SaltSchedule.reading, Reading.salts, exampleSchedule, SaltUse.index, ha, hb]

/-- A schedule that only chooses among the five fixed salts derives no salt parameter from the length (R217). -/
theorem test_named_salts_derive_nothing :
    ¬ LengthDerived (fun len => [[SaltUse.named (if len % 2 = 0 then 2 else 3)]]) := by
  rintro ⟨point, place, parameters, h⟩
  obtain ⟨⟨l, u, hl, hu, hp⟩, -⟩ := h 0
  obtain rfl : l = [SaltUse.named 2] := by
    have := List.mem_of_getElem? hl
    simpa using this
  obtain rfl : u = .named 2 := by simpa using List.mem_of_getElem? hu
  exact absurd hp (by simp [SaltUse.parameters])

/-- Six words on a fresh instance, by EXTRACT64 and EXTRACT128 (R232): a reading, and no computation of R212. -/
def sixWords : List Offer :=
  [Offer.plain (.salt 24 8 11), Offer.absorb [1, 2, 3, 4], Offer.plain (.saltk 1), Offer.plain (.extract64 2),
    Offer.plain (.saltk 3), Offer.plain (.extract128 2 3 4)]

theorem witness_ProtocolReadsAsManyWordsAsItAsks :
    resetConfiguration.Legal ∧ (∀ o ∈ sixWords, o.payload.isSome = decide (o.instr = .absorb)) ∧
    (∀ o ∈ sixWords, ∀ b ∈ o.payload, b.length = resetConfiguration.blockSize) ∧
    ValidReading .chain resetConfiguration.saltTable true 6 (sixWords.map fun o => o.instr) ∧
    ValidReading .xorFold resetConfiguration.saltTable false 6
      ((Offer.plain .reset :: sixWords).map fun o => o.instr) := ⟨by decide, by decide, by decide, rfl, rfl⟩

/-- The protocol has no place for STEP, for an ABSORB after the post-salt, for two words with a short salt between them, or
for a computation that starts on a used instance without RESET (R203, R212, R215). -/
theorem test_protocol_refuses :
    Phase.after .chain referenceTable .salted (.step 1 2) = none ∧
    Phase.after .chain referenceTable .finalSalted .absorb = none ∧
    Phase.afterAll (Phase.after .chain referenceTable) [.saltk 0, .extract32] (.extracting 1) = none ∧
    Phase.after .chain referenceTable (Phase.start false) (.saltk 2) = none ∧
    Phase.after .chain referenceTable .reset .absorb = none := by decide

/-- Computations that end with either command, for the last clause of StrategiesFollowTheProtocol. -/
theorem witness_StrategiesFollowTheProtocol_end :
    ValidComputation .xorFold referenceTable true [.absorb, .saltk 0, .extract128 2 3 4] ∧
    ValidComputation .chain referenceTable false [.reset, .saltk 1, .absorb, .saltk 0, .extract32, .saltk 2, .extract32,
      .saltk 1, .saltk 3, .extract32, .saltk 4, .saltk 0, .extract32] := ⟨rfl, rfl⟩

/-- A computation of the XOR-fold on a fresh instance, by EXTRACT128: nothing may follow it, neither a short salt nor a
long one nor RESET, and EXTRACT64 and further words have no place in it (R212, R233). -/
theorem test_done_is_terminal :
    ¬ ValidComputation .xorFold referenceTable true [.absorb, .saltk 0, .extract128 2 3 4, .saltk 0] ∧
    ¬ ValidComputation .xorFold referenceTable true [.absorb, .saltk 0, .extract128 2 3 4, .saltk 2] ∧
    ¬ ValidComputation .xorFold referenceTable true [.absorb, .saltk 0, .extract64 2, .saltk 2, .extract64 2] ∧
    ¬ ValidComputation .xorFold referenceTable true
      [.absorb, .saltk 0, .extract128 2 3 4, .reset, .absorb, .saltk 0, .extract128 2 3 4] ∧
    ¬ ValidReading .xorFold referenceTable true 4 [.absorb, .saltk 0, .extract128 2 3 4, .saltk 0] := by
  simp only [ValidComputation, ValidReading]
  decide

theorem witness_FreshInstancesNeedNoReset :
    (State.construct resetConfiguration).isSome = true ∧
    (goesOn (serve [Offer.plain (.salt 4 1 2), Offer.plain .extract32] State.reset)).isSome = true := by decide

theorem witness_WordsAreJoinedMostSignificantFirst : ([1, 2, 3, 4, 5] : List (BitVec 32)).length ≠ 4 := by decide

/-- 70_reset_and_hazards.md R221: each half is zero-padded, most significant half first. -/
theorem test_digest_digits : digestDigits 0x0000000000000000000000000000001F =
    "0000000000000000000000000000001f".toList := by decide

theorem witness_XorFoldIgnoresBlockOrder :
    ([[1, 2, 3, 4], [5, 6, 7, 8]] : List (List Byte)).Perm [[5, 6, 7, 8], [1, 2, 3, 4]] ∧
    State.reset.config = (withChannels [0] []).config := ⟨List.Perm.swap _ _ _, rfl⟩

end Sys2Proof.Tests
end

section
/-! Legal configurations: which block sizes and salt tables are legal, and what construction and the step do without
(00_scope.md R10; 93_implementation_defined.md U5, U6). -/

namespace Sys2Proof.Machine

/-- The block sizes R9 leaves out: no byte at all, and the odd sizes other than 1. -/
theorem not_blockSizeLegal_iff {n : Nat} : ¬ BlockSizeLegal n ↔ n = 0 ∨ (n % 2 = 1 ∧ n ≠ 1) := by
  unfold BlockSizeLegal
  omega

theorem not_legal_of_not_blockSizeLegal {c : Configuration} (h : ¬ BlockSizeLegal c.blockSize) : ¬ c.Legal :=
  fun hl => h hl.left

/-- A legal table names legal salts only (10_state.md R26). -/
theorem entry_legal {t : SaltTable} {k : BitVec 3} {salt : Salt} (ht : t.Legal) (he : t.entry k = some salt) :
    salt.Legal := by
  obtain ⟨h0, h1, h2, h3, h4⟩ := ht
  unfold SaltTable.entry at he
  split at he <;> cases he <;> assumption

/-- A configuration whose table names a salt of zero rounds is not legal (93_implementation_defined.md U6). -/
theorem not_legal_of_entry_rounds_zero {c : Configuration} {k : BitVec 3} {salt : Salt}
    (he : c.saltTable.entry k = some salt) (hr : salt.rounds = 0) : ¬ c.Legal := by
  intro hl
  have hpos : 1 ≤ salt.rounds := (entry_legal hl.right he).left
  omega

/-- A state with a configuration the hardware cannot have is refused before a command is taken (log 10). -/
@[simp] theorem step_of_not_legal {s : State} (h : ¬ s.config.Legal) : step s = .refused .illegalConfiguration :=
  if_neg h

/-- Settles O51: each illegality of the block size or of a table entry makes the configuration illegal, and an illegal
configuration is neither constructed nor stepped. -/
theorem illegalConfigurationsDoNotRun : Obligations.IllegalConfigurationsDoNotRun := by
  have badSize {c : Configuration} (h : c.blockSize = 0 ∨ (c.blockSize % 2 = 1 ∧ c.blockSize ≠ 1)) : ¬ c.Legal :=
    not_legal_of_not_blockSizeLegal (not_blockSizeLegal_iff.mpr h)
  refine ⟨fun _ h => construct_of_not_legal h, fun _ h => construct_of_not_legal (badSize h),
    fun _ h => step_of_not_legal h, fun _ hodd hne => step_of_not_legal (badSize (.inr ⟨hodd, hne⟩)),
    fun _ hzero => step_of_not_legal (badSize (.inl hzero)),
    fun _ _ _ he hr => step_of_not_legal (not_legal_of_entry_rounds_zero he hr), ?one, ?even⟩
  case one => exact fun _ ht => ⟨.inl rfl, ht⟩
  case even =>
    intro t h ht
    have hsize : 2 ≤ 2 * (h + 1) ∧ 2 * (h + 1) % 2 = 0 := by omega
    exact ⟨.inr hsize, ht⟩

end Sys2Proof.Machine
end

section
/-! What a command and a step change of the state (10_state.md): the lanes stay residues, the configuration is
read-only, the window is empty between commands, and the channels are seen only through the response (R21,
R24, R28, R31, R34). -/

namespace Sys2Proof.Machine

/-! ## Residues -/

/-- The machine's step function meets clause (c) of the step's contract (40_register_step.md R100). -/
theorem stepFn_keepsResidues : stepFn.KeepsResidues := fun s w =>
  ⟨fun _ => registerStep_below arith (by decide) (by decide) Reg.r251.constant s w,
    fun _ => registerStep_below arith (by decide) (by decide) Reg.r241.constant s w⟩

theorem seed_residues : Engine.seed.Residues := by decide

/-- A command that goes on leaves residues: the unit seed, a sequence of pair steps, or the lanes as they were (R21). -/
theorem exec_residues {i : Instr} {s t : State} (h : exec i s = .next t) (hs : s.engine.Residues) :
    t.engine.Residues := by
  rcases exec_next_cases h with ⟨-, rfl⟩ | ⟨-, d, rfl⟩ | ⟨-, st, -, -, rfl⟩
  case inl => exact seed_residues
  case inr.inl => exact feed_residues stepFn_keepsResidues (inputsOf s.config s.window i) hs
  case inr.inr => rwa [refuse_engine, endCommand_engine]

theorem perform_residues {tk : Taken} {t : State} (h : tk.perform = .next t) (hr : tk.rest.engine.Residues) :
    t.engine.Residues := by
  rcases perform_next_cases h with ⟨e, -, rfl⟩ | ⟨i, -, hi⟩
  · exact hr
  · exact exec_residues hi (by rwa [openWindow_engine])

/-! ## The configuration -/

theorem perform_config {tk : Taken} {t : State} (h : tk.perform = .next t) : t.config = tk.rest.config := by
  rcases perform_next_cases h with ⟨e, -, rfl⟩ | ⟨i, -, hi⟩
  · rfl
  · rw [(exec_keeps hi).left, openWindow_config]

/-- Settles O50: waiting changes nothing, and neither taking a command nor performing it writes the configuration. -/
theorem configurationIsReadOnly : Obligations.ConfigurationIsReadOnly := by
  intro s t h
  obtain ⟨-, ⟨-, rfl⟩ | ⟨tk, htake, hperform⟩⟩ := step_next_cases h
  · rfl
  · obtain ⟨-, -, hconfig, -⟩ := takeCommand_some htake
    exact (perform_config hperform).trans hconfig

/-! ## The block window -/

/-- The window after a command: none after an ABSORB, as it was after every other (20_memory.md R50). -/
theorem exec_window {i : Instr} {s t : State} (h : exec i s = .next t) :
    t.window = if i = .absorb then [] else s.window := by
  obtain ⟨-, -, -, hwindow, -⟩ := exec_keeps h
  rw [hwindow, endCommand_window]

/-- A command other than ABSORB is taken without a payload (30_encoding.md R76). -/
theorem takeCommand_payload_none {s : State} {tk : Taken} {i : Instr} (h : s.takeCommand = some tk)
    (hd : decode tk.word = .ok i) (hi : i ≠ .absorb) : tk.payload = none := by
  obtain ⟨-, -, -, -, -, ⟨-, hpayload, -⟩ | ⟨hbrings, -⟩⟩ := takeCommand_some h
  · exact hpayload
  · rw [bringsBlock_of_decode hd, decide_eq_true_eq] at hbrings
    exact absurd hbrings hi

/-- A command taken while the window is empty leaves it empty: only an ABSORB opens it, and it closes it again (R36,
R50). -/
theorem perform_window {s t : State} {tk : Taken} (htake : s.takeCommand = some tk) (h : tk.perform = .next t)
    (hs : s.window = []) : t.window = [] := by
  obtain ⟨-, -, -, hrest, -⟩ := takeCommand_some htake
  rcases perform_next_cases h with ⟨e, -, rfl⟩ | ⟨i, hd, hi⟩
  · rw [refuse_window, hrest, hs]
  · rw [exec_window hi]
    split
    · rfl
    · rw [takeCommand_payload_none htake hd ‹i ≠ .absorb›, openWindow_none, hrest, hs]

/-! ## The invariant between commands -/

/-- Settles O48: a step that waits changes nothing; one that performs a command keeps each of the three parts. -/
theorem stepKeepsTheInvariant : Obligations.StepKeepsTheInvariant := by
  rintro s t ⟨hresidues, hwindow, hlegal⟩ h
  have hconfig : t.config = s.config := configurationIsReadOnly s t h
  obtain ⟨-, ⟨-, rfl⟩ | ⟨tk, htake, hperform⟩⟩ := step_next_cases h
  · exact ⟨hresidues, hwindow, hlegal⟩
  · obtain ⟨-, hengine, -⟩ := takeCommand_some htake
    exact ⟨perform_residues hperform (by rwa [hengine]), perform_window htake hperform hwindow, by rwa [hconfig]⟩

/-- Construction gives the fresh state of a legal configuration and nothing else (00_scope.md R10; R200). -/
theorem construct_eq_some_iff {c : Configuration} {s : State} :
    State.construct c = some s ↔ c.Legal ∧ s = State.fresh c := by
  rw [State.construct, Option.ite_none_right_eq_some, Option.some.injEq, eq_comm (b := s)]

theorem fresh_inv {c : Configuration} (h : c.Legal) : (State.fresh c).Inv := ⟨seed_residues, rfl, h⟩

theorem resetConfiguration_legal : resetConfiguration.Legal := by decide

/-- Settles O49: what is constructed is the fresh state of a legal configuration, and State.reset is one. -/
theorem freshInstancesMeetTheInvariant : Obligations.FreshInstancesMeetTheInvariant := by
  refine ⟨fun c s h => ?_, construct_of_legal resetConfiguration_legal, fresh_inv resetConfiguration_legal⟩
  obtain ⟨hlegal, rfl⟩ := construct_eq_some_iff.mp h
  exact fresh_inv hlegal

/-- RESET in any state: both Registers at the unit seed and the answer OK (40_register_step.md R108). -/
theorem exec_reset (s : State) : exec .reset s = .next ((s.withEngine Engine.seed).respond .ok 0) := rfl

/-- Settles O14: construction with a legal configuration gives its fresh state, which like RESET has `Engine.seed`. -/
theorem constructionAndResetGiveTheUnitSeed : Obligations.ConstructionAndResetGiveTheUnitSeed :=
  ⟨fun c hc => ⟨State.fresh c, construct_of_legal hc, fresh_engine c, fresh_config c, fresh_window c⟩,
    exec_reset, rfl, rfl, rfl, rfl⟩

/-! ## The frame of a command -/

/-- EXTRACT32 in any state: a pure read (43_extract.md R153). -/
theorem exec_extract32 (s : State) : exec .extract32 s = .next (s.respond .ok (s.engine.x32.setWidth 128)) := rfl

/-- Settles O41: what every command keeps, its window by cases on ABSORB, and the lanes of an EXTRACT32. -/
theorem commandsChangeOnlyLanesAndResponses : Obligations.CommandsChangeOnlyLanesAndResponses := by
  intro i s t h
  obtain ⟨hconfig, hcmd, hblock, -, hresp⟩ := exec_keeps h
  refine ⟨hconfig, hcmd, hblock, hresp, ?other, ?absorb, ?extract⟩
  case other =>
    intro hi off
    rw [exec_window h, if_neg hi]
  case absorb =>
    intro hi
    rw [exec_window h, if_pos hi]
  case extract =>
    rintro rfl
    rw [exec_extract32, Host.Outcome.next.injEq] at h
    rw [← h, respond_engine]

/-! ## The channels are not read -/

/-- The state with other items on its three channels. -/
def State.onChannels (s : State) (cmds : List CmdWord) (blocks : List (List Byte)) (resps : List Response) : State :=
  { s with cmdChan := cmds, blockChan := blocks, respChan := resps }

@[simp] theorem onChannels_config (s : State) (cmds : List CmdWord) (blocks : List (List Byte))
    (resps : List Response) : (s.onChannels cmds blocks resps).config = s.config := rfl
@[simp] theorem onChannels_window (s : State) (cmds : List CmdWord) (blocks : List (List Byte))
    (resps : List Response) : (s.onChannels cmds blocks resps).window = s.window := rfl

/-- States that agree on lanes, configuration and window differ in their channels only. -/
theorem eq_onChannels_of_agree {s s' : State} (he : s.engine = s'.engine) (hc : s.config = s'.config)
    (hw : s.window = s'.window) : s' = s.onChannels s'.cmdChan s'.blockChan s'.respChan := by
  rw [State.onChannels, he, hc, hw]

/-- The outcomes of one command in `s` and in `s` with other channels: where the first goes on, so does the second, to
the same state but for the channels, on which the same response is added. -/
def SameResultOnChannels (s : State) (cmds : List CmdWord) (blocks : List (List Byte)) (resps : List Response)
    (o o' : Host.Outcome State Fault Refusal) : Prop :=
  ∀ t, o = .next t →
    ∃ r, t.respChan = s.respChan ++ [r] ∧ o' = .next (t.onChannels cmds blocks (resps ++ [r]))

section
variable (s : State) (cmds : List CmdWord) (blocks : List (List Byte)) (resps : List Response)

/-- A command that ends by responding from a state with the responses of `s` gives the same result on other channels. -/
theorem sameResult_respond {u : State} (hu : u.respChan = s.respChan) (st : Status) (d : BitVec 128) :
    SameResultOnChannels s cmds blocks resps (.next (u.respond st d))
      (.next ((u.onChannels cmds blocks resps).respond st d)) := by
  intro t ht
  obtain rfl := Host.Outcome.next.inj ht
  exact ⟨{ status := st, data := d }, by rw [respond_respChan, hu], rfl⟩

theorem sameResult_saltOrRefuse (checked : Except Status Salt) :
    SameResultOnChannels s cmds blocks resps (saltOrRefuse checked s)
      (saltOrRefuse checked (s.onChannels cmds blocks resps)) := by
  cases checked with
  | ok salt => exact sameResult_respond s cmds blocks resps (u := s.withEngine (s.engine.salt stepFn salt)) rfl .ok 0
  | error st => exact sameResult_respond s cmds blocks resps rfl st 0

theorem sameResult_execAbsorb :
    SameResultOnChannels s cmds blocks resps (execAbsorb s) (execAbsorb (s.onChannels cmds blocks resps)) := by
  unfold execAbsorb
  simp only [onChannels_config, onChannels_window]
  split
  · exact sameResult_respond s cmds blocks resps (u := s.closeWindow) rfl .blockLength 0
  · split
    · rename_i inputs _
      exact sameResult_respond s cmds blocks resps
        (u := (s.withEngine (s.engine.feed stepFn inputs)).closeWindow) rfl .ok 0
    · exact fun _ ht => nomatch ht

theorem sameResult_execExtract64 (k : BitVec 3) :
    SameResultOnChannels s cmds blocks resps (execExtract64 k s)
      (execExtract64 k (s.onChannels cmds blocks resps)) := by
  unfold execExtract64
  simp only [onChannels_config]
  split
  · exact sameResult_respond s cmds blocks resps rfl _ 0
  · rename_i salt _
    exact sameResult_respond s cmds blocks resps (u := s.withEngine (s.engine.salt stepFn salt)) rfl .ok _

theorem sameResult_execExtract128 (k1 k2 k3 : BitVec 3) :
    SameResultOnChannels s cmds blocks resps (execExtract128 k1 k2 k3 s)
      (execExtract128 k1 k2 k3 (s.onChannels cmds blocks resps)) := by
  unfold execExtract128
  simp only [onChannels_config]
  split
  · exact sameResult_respond s cmds blocks resps rfl _ 0
  · rename_i salt1 salt2 salt3 _
    exact sameResult_respond s cmds blocks resps
      (u := s.withEngine (((s.engine.salt stepFn salt1).salt stepFn salt2).salt stepFn salt3)) rfl .ok _

/-- No command reads a channel (R31): each ends by responding, after checks that read its operands, the configuration
and the window only. -/
theorem exec_sameResult (i : Instr) :
    SameResultOnChannels s cmds blocks resps (exec i s) (exec i (s.onChannels cmds blocks resps)) := by
  cases i with
  | reset => exact sameResult_respond s cmds blocks resps (u := s.withEngine Engine.seed) rfl .ok 0
  | step w0 w1 =>
    exact sameResult_respond s cmds blocks resps (u := s.withEngine (s.engine.pairStep stepFn w0 w1)) rfl .ok 0
  | salt rounds noise0 noise1 =>
    exact sameResult_saltOrRefuse s cmds blocks resps (checkedRounds rounds noise0 noise1)
  | saltk k => exact sameResult_saltOrRefuse s cmds blocks resps (checkedIndex s.config.saltTable k)
  | absorb => exact sameResult_execAbsorb s cmds blocks resps
  | extract32 => exact sameResult_respond s cmds blocks resps rfl .ok (s.engine.x32.setWidth 128)
  | extract64 k => exact sameResult_execExtract64 s cmds blocks resps k
  | extract128 k1 k2 k3 => exact sameResult_execExtract128 s cmds blocks resps k1 k2 k3

end

/-- Settles O40: states that agree on lanes, configuration and window are one state on two sets of channels, and no
command reads a channel. -/
theorem resultsDependOnLanesConfigurationAndOperands : Obligations.ResultsDependOnLanesConfigurationAndOperands := by
  intro i s s' t he hc hw h
  obtain ⟨r, hresp, h'⟩ := exec_sameResult s s'.cmdChan s'.blockChan s'.respChan i t h
  rw [← eq_onChannels_of_agree he hc hw] at h'
  exact ⟨_, r, h', rfl, hresp, rfl⟩

end Sys2Proof.Machine
end

section
/-! The block window and the channels (20_memory.md): what a read of a block gives, the window's canonical form, Registers
that never read each other, and offers served in the order they were issued (R50 to R54, R64, R65). -/

namespace Sys2Proof.Machine

/-! ## Reads of the block window -/

/-- A word is joined from two bytes that can be read (R53). -/
theorem readWord_of_bytes {m : Memory} {off : Nat} {lo hi : Byte} (hlo : m.readByte off = some lo)
    (hhi : m.readByte (off + 1) = some hi) : m.readWord off = some (lo.setWidth 16 ||| (hi.setWidth 16 <<< 8)) := by
  rw [Memory.readWord, hlo, hhi]

/-- Without its high byte a word has no value (R54, log 8). -/
theorem readWord_of_no_high_byte {m : Memory} {off : Nat} (hhi : m.readByte (off + 1) = none) :
    m.readWord off = none := by
  unfold Memory.readWord
  rw [hhi]
  cases m.readByte off <;> rfl

/-- Outside the block there is no byte (R54). -/
theorem readByte_ofPayload_of_le {bs : List Byte} {off : Nat} (h : bs.length ≤ off) :
    (Memory.ofPayload bs).readByte off = none := by
  rw [readByte_ofPayload, List.getElem?_eq_none h]

/-- Settles O23: a byte read of a block's window is the list's own lookup, and a word read joins two of them. -/
theorem blockReadsAreLittleEndian : Obligations.BlockReadsAreLittleEndian := by
  intro block off
  refine ⟨?byte, readByte_ofPayload_of_le, ?word, fun h => readWord_of_no_high_byte (readByte_ofPayload_of_le h)⟩
  case byte =>
    intro b hb
    rw [readByte_ofPayload, hb]
  case word =>
    intro lo hi hlo hhi
    rw [← readByte_ofPayload] at hlo hhi
    exact ⟨_, readWord_of_bytes hlo hhi, join_toNat lo hi⟩

/-! ## The canonical form of the window -/

theorem exec_window_wf {i : Instr} {s t : State} (h : exec i s = .next t) (hs : s.window.wf) : t.window.wf := by
  rw [exec_window h]
  split
  · exact List.Pairwise.nil
  · exact hs

theorem perform_window_wf {tk : Taken} {t : State} (h : tk.perform = .next t) (hr : tk.rest.window.wf) :
    t.window.wf := by
  rcases perform_next_cases h with ⟨e, -, rfl⟩ | ⟨i, -, hi⟩
  · rwa [refuse_window]
  · exact exec_window_wf hi (openWindow_wf hr tk.payload)

/-- Settles O24: a payload opens a canonical window, and a step waits, or opens such a window and closes or keeps it. -/
theorem blockWindowStaysCanonical : Obligations.BlockWindowStaysCanonical := by
  refine ⟨ofPayload_wf, fun s t hs h => ?_⟩
  obtain ⟨-, ⟨-, rfl⟩ | ⟨tk, htake, hperform⟩⟩ := step_next_cases h
  · exact hs
  · obtain ⟨-, -, -, hwindow, -⟩ := takeCommand_some htake
    exact perform_window_wf hperform (by rwa [hwindow])

/-! ## The Registers do not read each other -/

/-- The lanes a command leaves: RESET writes the unit seed, every other command feeds its inputs, of which a refused one
has none (R106, R108, R171). -/
theorem exec_engine {i : Instr} {s t : State} (h : exec i s = .next t) :
    t.engine = if i = .reset then Engine.seed else s.engine.feed stepFn (inputsOf s.config s.window i) := by
  rcases exec_next_cases h with ⟨hi, rfl⟩ | ⟨hi, data, rfl⟩ | ⟨hi, st, -, hnone, rfl⟩
  case inl => rw [if_pos hi, respond_engine, withEngine_engine]
  case inr.inl => rw [if_neg hi, respond_engine, withEngine_engine]
  case inr.inr => rw [if_neg hi, hnone, feed_nil, refuse_engine, endCommand_engine]

/-- Settles O39: RESET writes constants; every other command feeds both states the same inputs, and each Register steps
through its own half of them. -/
theorem registersNeverReadEachOther : Obligations.RegistersNeverReadEachOther := by
  intro i s s' t t' hconfig hwindow h h'
  rw [exec_engine h, exec_engine h', ← hconfig, ← hwindow]
  split
  case isTrue => exact ⟨fun _ => rfl, fun _ => rfl⟩
  case isFalse =>
    constructor <;> intro hreg
    · rw [feed_r251, feed_r251, hreg]
    · rw [feed_r241, feed_r241, hreg]

/-! ## Offers are served in order -/

/-- The fields of an encoded command are its operands (30_encoding.md R72, R73). -/
theorem instrOfFields_encode (i : Instr) : instrOfFields i.mnemonic (encode i) = i := by
  cases i with
  | reset => rfl
  | step w0 w1 => simp [Instr.mnemonic, instrOfFields, encode]
  | salt rounds noise0 noise1 => simp [Instr.mnemonic, instrOfFields, encode]
  | saltk k => simp [Instr.mnemonic, instrOfFields, encode]
  | absorb => rfl
  | extract32 => rfl
  | extract64 k => simp [Instr.mnemonic, instrOfFields, encode]
  | extract128 k1 k2 k3 =>
    obtain ⟨h1, h2, h3⟩ := indexFields_wordOfFields Mnemonic.extract128.op k1 k2 k3 0 0
    rw [Instr.mnemonic, instrOfFields, encode, h1, h2, h3]

/-- The decoder reads back every encoded command (30_encoding.md R71 to R75). -/
theorem decode_encode (i : Instr) : decode (encode i) = .ok i :=
  decode_ok_iff.mpr ⟨by rw [opField_encode, mnemonicOfOp_op], reservedClear_encode i, (instrOfFields_encode i).symm⟩

/-- An offer whose payload is there exactly if its command is an ABSORB (30_encoding.md R76). -/
def Offer.Fits (o : Offer) : Prop := o.payload.isSome = decide (o.instr = .absorb)

/-- Opening the window and putting offers on the channels touch different fields. -/
theorem offer_openWindow (s : State) (os : List Offer) (p : Option (List Byte)) :
    (s.offer os).openWindow p = (s.openWindow p).offer os := by
  cases p <;> rfl

/-- From empty channels the first offer is taken with its payload, and the others are left (R64, R70, R76). -/
theorem takeCommand_offer_cons {o : Offer} (os : List Offer) {s : State} (hcmd : s.cmdChan = [])
    (hblock : s.blockChan = []) (ho : o.Fits) :
    (s.offer (o :: os)).takeCommand =
      some { word := encode o.instr, payload := o.payload, rest := s.offer os } := by
  have hbrings : bringsBlock (encode o.instr) = o.payload.isSome :=
    (bringsBlock_of_decode (decode_encode o.instr)).trans ho.symm
  have hwords : (s.offer (o :: os)).cmdChan = encode o.instr :: (s.offer os).cmdChan := by simp [hcmd]
  cases hp : o.payload with
  | none =>
    rw [takeCommand_plain hwords (by rw [hbrings, hp]; rfl)]
    simp [State.offer, hp]
  | some b =>
    have hblocks : (s.offer (o :: os)).blockChan = b :: (s.offer os).blockChan := by simp [hblock, hp]
    rw [takeCommand_block hwords (by rw [hbrings, hp]; rfl) hblocks]
    rfl

/-- One step over offers executes the first and leaves the others waiting. -/
theorem step_offer_cons {o : Offer} (os : List Offer) {s t : State} (hlegal : s.config.Legal) (hcmd : s.cmdChan = [])
    (hblock : s.blockChan = []) (ho : o.Fits) (h : exec o.instr (s.openWindow o.payload) = .next t) :
    step (s.offer (o :: os)) = .next (t.offer os) := by
  have htake := takeCommand_offer_cons os hcmd hblock ho
  have hlegal' : (s.offer (o :: os)).config.Legal := hlegal
  simp only [step_of_take hlegal' htake, Taken.perform, decode_encode, offer_openWindow]
  exact exec_offer o.instr (s.openWindow o.payload) t os h

/-- Serving offers goes on only by executing the first and serving the others from there. -/
theorem serve_cons_next {o : Offer} {os : List Offer} {s u : State} (h : serve (o :: os) s = .next u) :
    ∃ t, exec o.instr (s.openWindow o.payload) = .next t ∧ serve os t = .next u := by
  rw [serve] at h
  split at h
  · exact ⟨_, ‹_›, h⟩
  · cases h
  · cases h

theorem offer_nil (s : State) : s.offer [] = s := by simp [State.offer]

/-- Settles O52, by induction on the offers: a step serves the first one and keeps the configuration and the empty
channels behind the others. -/
theorem channelsServeOffersInOrder : Obligations.ChannelsServeOffersInOrder := by
  intro os
  induction os with
  | nil =>
    intro s u _ _ _ _ h
    rw [offer_nil]
    exact h
  | cons o os ih =>
    intro s u hlegal hcmd hblock hfit h
    obtain ⟨t, hexec, hserve⟩ := serve_cons_next h
    obtain ⟨htconfig, htcmd, htblock, -⟩ := exec_keeps hexec
    rw [openWindow_config] at htconfig
    rw [openWindow_cmdChan] at htcmd
    rw [openWindow_blockChan] at htblock
    obtain ⟨ho, hos⟩ := List.forall_mem_cons.mp hfit
    have hstep : core.step (s.offer (o :: os)) = .next (t.offer os) := step_offer_cons os hlegal hcmd hblock ho hexec
    rw [List.length_cons, run_succ hstep]
    exact ih t u (by rwa [htconfig]) (htcmd.trans hcmd) (htblock.trans hblock) hos hserve

end Sys2Proof.Machine
end

section
/-! The encoding (30_encoding.md): encoded commands decode back, the printed masks and matches, the reserved bits, the
bytes of the transport, the assembler line, and the step of a word that decodes to a command or to none (R70 to R83). -/

namespace Sys2Proof.Machine

/-! ## Encoded commands -/

/-- Settles O2: the opcode, the reserved bits and the operand fields of an encoded command are read back. -/
theorem decodeOfEncodeIsTheCommand : Obligations.DecodeOfEncodeIsTheCommand := decode_encode

/-- Settles O1: each of the words is the encoding of its command. -/
theorem specWordsDecode : Obligations.SpecWordsDecode :=
  ⟨decode_encode .reset, decode_encode (.step 0x1234 0xABCD), decode_encode (.salt 24 8 11), decode_encode (.saltk 3),
    decode_encode .absorb, decode_encode .extract32, decode_encode (.extract64 2), decode_encode (.extract128 2 3 4)⟩

/-! ## The opcode -/

/-- The opcode bytes that name no command (R79). -/
theorem mnemonicOfOp_eq_none_iff {op : BitVec 8} : mnemonicOfOp op = none ↔ op.toNat = 0 ∨ 9 ≤ op.toNat := by
  simp only [mnemonicOfOp, ← BitVec.toNat_inj, BitVec.reduceToNat]
  split_ifs <;> simp only [false_iff, true_iff] <;> omega

/-- An opcode byte names a command exactly when it is the command's number (R75). -/
theorem mnemonicOfOp_eq_some_iff {op : BitVec 8} {m : Mnemonic} : mnemonicOfOp op = some m ↔ op = m.op :=
  ⟨op_of_mnemonicOfOp, fun h => h ▸ mnemonicOfOp_op m⟩

/-- The words that decode to a command of a row (R75, R80). -/
theorem exists_decode_iff {w : CmdWord} {m : Mnemonic} :
    (∃ i, decode w = .ok i ∧ i.mnemonic = m) ↔ opField w = m.op ∧ reservedClear m w = true := by
  constructor
  · rintro ⟨i, hd, rfl⟩
    obtain ⟨hop, hclear, -⟩ := decode_ok_iff.mp hd
    exact ⟨op_of_mnemonicOfOp hop, hclear⟩
  · rintro ⟨hop, hclear⟩
    refine ⟨instrOfFields m w, decode_ok_iff.mpr ?_, instrOfFields_mnemonic m w⟩
    rw [instrOfFields_mnemonic]
    exact ⟨mnemonicOfOp_eq_some_iff.mpr hop, hclear, rfl⟩

/-- The words rejected with ILLEGAL_OPCODE (R79). -/
theorem decode_eq_illegalOpcode_iff {w : CmdWord} :
    decode w = .error .illegalOpcode ↔ (opField w).toNat = 0 ∨ 9 ≤ (opField w).toNat := by
  rw [← mnemonicOfOp_eq_none_iff]
  constructor
  · intro h
    rcases decode_error_cases h with ⟨hop, -⟩ | ⟨m, -, -, he⟩
    · exact hop
    · cases he
  · intro hop
    rw [decode, hop]

/-- The words rejected with RESERVED_FIELD (R80). -/
theorem decode_eq_reservedField_iff {w : CmdWord} :
    decode w = .error .reservedField ↔ ∃ m : Mnemonic, opField w = m.op ∧ reservedClear m w = false := by
  constructor
  · intro h
    rcases decode_error_cases h with ⟨-, he⟩ | ⟨m, hop, hclear, -⟩
    · cases he
    · exact ⟨m, op_of_mnemonicOfOp hop, hclear⟩
  · rintro ⟨m, hop, hclear⟩
    simp [decode, hop, hclear]

/-! ## The reserved bits -/

/-- The bit positions R80 reserves for a command. -/
def reservedBit (m : Mnemonic) (j : Nat) : Bool :=
  match m with
  | .reset | .absorb | .extract32 => j ≤ 55
  | .step => 32 ≤ j ∧ j ≤ 55
  | .salt => false
  | .saltk | .extract64 => j ≤ 31 ∨ (35 ≤ j ∧ j ≤ 55)
  | .extract128 => j ≤ 31 ∨ (41 ≤ j ∧ j ≤ 55)

/-- A field of a word is zero when each of its bits is. -/
theorem extractLsb'_beq_zero_iff {w : CmdWord} {start len : Nat} :
    (w.extractLsb' start len == 0) = true ↔ ∀ j, start ≤ j ∧ j < start + len → w.getLsbD j = false := by
  rw [beq_iff_eq, BitVec.ofNat_eq_ofNat, BitVec.zero_iff_eq_false]
  simp only [BitVec.getLsbD_extractLsb', Bool.and_eq_false_imp, decide_eq_true_eq]
  constructor
  · intro h j hj
    have hbit := h (j - start) (by omega)
    rwa [Nat.add_sub_cancel' hj.left] at hbit
  · exact fun h k hk => h (start + k) (by omega)

/-- The decoder's test of the reserved fields reads each reserved bit (R80). -/
theorem reservedClear_iff {m : Mnemonic} {w : CmdWord} :
    reservedClear m w = true ↔ ∀ j, reservedBit m j = true → w.getLsbD j = false := by
  cases m <;>
    simp only [reservedClear, reservedBit, Bool.and_eq_true, extractLsb'_beq_zero_iff, decide_eq_true_eq,
      ← forall_and, ← or_imp, Bool.false_eq_true, false_imp_iff, implies_true]
  all_goals exact forall_congr' fun j => imp_congr_left (by omega)

theorem reservedClear_eq_false_iff {m : Mnemonic} {w : CmdWord} :
    reservedClear m w = false ↔ ∃ j, reservedBit m j = true ∧ w.getLsbD j = true := by
  rw [← Bool.not_eq_true, reservedClear_iff]
  simp only [not_forall, exists_prop, Bool.not_eq_false]

/-! ## The printed masks and matches (R75) -/

/-- A row's mask reads the opcode and the reserved bits. -/
theorem getLsbD_rowMask (m : Mnemonic) {j : Nat} (hj : j < 64) :
    m.rowMask.getLsbD j = (decide (56 ≤ j) || reservedBit m j) := by
  revert j
  cases m <;> decide

/-- A row's match is its opcode number above zeros. -/
theorem getLsbD_rowMatch (m : Mnemonic) {j : Nat} (hj : j < 64) :
    m.rowMatch.getLsbD j = (decide (56 ≤ j) && m.op.getLsbD (j - 56)) := by
  revert j
  cases m <;> decide

/-- No bit of the opcode is reserved. -/
theorem lt_of_reservedBit {m : Mnemonic} {j : Nat} (h : reservedBit m j = true) : j < 56 := by
  cases m <;> simp only [reservedBit, decide_eq_true_eq, Bool.false_eq_true] at h <;> omega

/-- Bits of the opcode field. -/
theorem getLsbD_opField (w : CmdWord) {k : Nat} (hk : k < 8) : (opField w).getLsbD k = w.getLsbD (56 + k) := by
  simp [opField, hk]

/-- A word selects a row when its opcode is the row's and its reserved bits are zero (R75, R80). -/
theorem selectsRow_iff {m : Mnemonic} {w : CmdWord} :
    selectsRow m w = true ↔ opField w = m.op ∧ reservedClear m w = true := by
  rw [selectsRow, beq_iff_eq, reservedClear_iff, BitVec.eq_of_getLsbD_eq_iff, BitVec.eq_of_getLsbD_eq_iff]
  simp only [BitVec.getLsbD_and]
  constructor
  · refine fun h => ⟨fun k hk => ?_, fun j hj => ?_⟩
    · have hbit := h (56 + k) (by omega)
      rw [getLsbD_rowMask m (by omega), getLsbD_rowMatch m (by omega)] at hbit
      simpa [getLsbD_opField w hk] using hbit
    · have hlow : ¬ 56 ≤ j := Nat.not_le.mpr (lt_of_reservedBit hj)
      have hbit := h j (by omega)
      rw [getLsbD_rowMask m (by omega), getLsbD_rowMatch m (by omega), hj] at hbit
      simpa [hlow] using hbit
  · rintro ⟨hop, hclear⟩ j hj
    rw [getLsbD_rowMask m hj, getLsbD_rowMatch m hj]
    by_cases htop : 56 ≤ j
    · obtain ⟨k, rfl⟩ := Nat.exists_eq_add_of_le htop
      simp [← hop k (by omega), getLsbD_opField w (k := k) (by omega)]
    · cases hr : reservedBit m j with
      | false => simp [htop]
      | true => simp [htop, hclear j hr]

/-- Settles O4: both sides say that the opcode is the row's and the reserved bits are zero. -/
theorem decoderAgreesWithMaskAndMatch : Obligations.DecoderAgreesWithMaskAndMatch := by
  refine ⟨fun w m => exists_decode_iff.trans selectsRow_iff.symm, fun w m m' h h' => ?_⟩
  obtain ⟨i, hi, rfl⟩ := exists_decode_iff.mpr (selectsRow_iff.mp h)
  obtain ⟨i', hi', rfl⟩ := exists_decode_iff.mpr (selectsRow_iff.mp h')
  rw [Except.ok.inj (hi.symm.trans hi')]

/-! ## Words that decode to no command -/

/-- A taken word that decodes to no command is refused with the error's status (R79, R80, R171). -/
theorem step_of_decode_error {s : State} {tk : Taken} {e : DecodeError} (hl : s.config.Legal)
    (htake : s.takeCommand = some tk) (hd : decode tk.word = .error e) :
    step s = .next (tk.rest.refuse e.status) := by
  rw [step_of_take hl htake, Taken.perform, hd]

theorem bringsBlock_iff {w : CmdWord} : bringsBlock w = true ↔ w.extractLsb' 56 8 = 5#8 := beq_iff_eq

theorem bringsBlock_eq_false_iff {w : CmdWord} : bringsBlock w = false ↔ w.extractLsb' 56 8 ≠ 5#8 :=
  beq_eq_false_iff_ne

/-- Settles O5: no command has such an opcode, and it is not that of an ABSORB, so the word is taken alone. -/
theorem illegalOpcodeWordsAreRefused : Obligations.IllegalOpcodeWordsAreRefused := by
  refine ⟨fun s w ws hl hw hop => ?_, rfl, rfl⟩
  have hd : decode w = .error .illegalOpcode := decode_eq_illegalOpcode_iff.mpr hop
  have hplain : bringsBlock w = false := bringsBlock_eq_false_iff.mpr fun h5 => by
    rw [h5] at hop
    revert hop
    decide
  exact ⟨hd, step_of_decode_error hl (takeCommand_plain hw hplain) hd⟩

/-- Settles O6: the reserved bits row by row, and the step of a word that is taken alone or with its payload. -/
theorem reservedFieldWordsAreRefused : Obligations.ReservedFieldWordsAreRefused := by
  refine ⟨fun w => ?iff, fun s w ws hl hw hd => ⟨?plain, ?block⟩⟩
  case iff =>
    rw [decode_eq_reservedField_iff]
    simp only [reservedClear_eq_false_iff]
    constructor
    · rintro ⟨m, hop, j, hj, hbit⟩
      cases m <;> simp only [reservedBit, decide_eq_true_eq, Bool.false_eq_true] at hj
      case reset => exact .inl ⟨.inl hop, j, hj, hbit⟩
      case step => exact .inr (.inl ⟨hop, j, hj.1, hj.2, hbit⟩)
      case saltk => exact .inr (.inr (.inl ⟨.inl hop, j, hj, hbit⟩))
      case absorb => exact .inl ⟨.inr (.inl hop), j, hj, hbit⟩
      case extract32 => exact .inl ⟨.inr (.inr hop), j, hj, hbit⟩
      case extract64 => exact .inr (.inr (.inl ⟨.inr hop, j, hj, hbit⟩))
      case extract128 => exact .inr (.inr (.inr ⟨hop, j, hj, hbit⟩))
    · rintro (⟨hop | hop | hop, j, hj, hbit⟩ | ⟨hop, j, hlow, hhigh, hbit⟩ | ⟨hop | hop, j, hj, hbit⟩ |
        ⟨hop, j, hj, hbit⟩)
      · exact ⟨.reset, hop, j, decide_eq_true hj, hbit⟩
      · exact ⟨.absorb, hop, j, decide_eq_true hj, hbit⟩
      · exact ⟨.extract32, hop, j, decide_eq_true hj, hbit⟩
      · exact ⟨.step, hop, j, decide_eq_true ⟨hlow, hhigh⟩, hbit⟩
      · exact ⟨.saltk, hop, j, decide_eq_true hj, hbit⟩
      · exact ⟨.extract64, hop, j, decide_eq_true hj, hbit⟩
      · exact ⟨.extract128, hop, j, decide_eq_true hj, hbit⟩
  case plain =>
    exact fun h5 => step_of_decode_error hl (takeCommand_plain hw (bringsBlock_eq_false_iff.mpr h5)) hd
  case block =>
    exact fun b bs h5 hb => step_of_decode_error hl (takeCommand_block hw (bringsBlock_iff.mpr h5) hb) hd

/-! ## Words that decode to a command -/

/-- A taken word that decodes is executed with its payload in the window (R76, R85). -/
theorem step_of_decode_ok {s : State} {tk : Taken} {i : Instr} (hl : s.config.Legal)
    (htake : s.takeCommand = some tk) (hd : decode tk.word = .ok i) :
    step s = exec i (tk.rest.openWindow tk.payload) := by
  rw [step_of_take hl htake, Taken.perform, hd]

/-- Settles O42: the word of an ABSORB is taken with its payload, every other one alone. -/
theorem stepRunsTheDecodedCommand : Obligations.StepRunsTheDecodedCommand := by
  intro s w ws i hl hw hd
  have hbrings : bringsBlock w = decide (i = .absorb) := bringsBlock_of_decode hd
  refine ⟨fun hi => ?plain, fun b bs hi hb => ?block⟩
  case plain =>
    rw [decide_eq_false hi] at hbrings
    exact step_of_decode_ok hl (takeCommand_plain hw hbrings) hd
  case block =>
    rw [decide_eq_true hi] at hbrings
    rw [hi] at hd
    exact step_of_decode_ok hl (takeCommand_block hw hbrings hb) hd

/-! ## Bytes and lines -/

/-- Byte `j` of a word, counted from the least significant (R78). -/
theorem extractLsb'_byte {n : Nat} (x : BitVec n) (j : Nat) :
    x.extractLsb' (8 * j) 8 = BitVec.ofNat 8 (x.toNat / 256 ^ j) := by
  apply BitVec.eq_of_toNat_eq
  rw [BitVec.extractLsb'_toNat, BitVec.toNat_ofNat, Nat.shiftRight_eq_div_pow, Nat.pow_mul]

/-- The bytes of a command word, in the order they travel (R78). -/
theorem bytesOfWord_eq_map (w : CmdWord) : bytesOfWord w = (List.range 8).map fun j => w.extractLsb' (8 * j) 8 := rfl

/-- The eight bytes of a command word give it back (R78). -/
theorem wordOfBytes_bytesOfWord (w : CmdWord) : wordOfBytes (bytesOfWord w) = some w := by
  simp only [bytesOfWord, wordOfBytes, Option.some.injEq]
  apply BitVec.eq_of_toNat_eq
  have := w.isLt
  simp only [append_toNat, BitVec.extractLsb'_toNat, Nat.shiftRight_eq_div_pow]
  omega

/-- The bytes that are the code of a status (60_exceptions.md R172). -/
theorem exists_code_eq_iff {b : Byte} : (∃ st : Status, st.code = b) ↔ b.toNat ≤ 6 := by
  constructor
  · rintro ⟨st, rfl⟩
    cases st <;> decide
  · intro hb
    interval_cases h : b.toNat
    · exact ⟨.ok, BitVec.eq_of_toNat_eq h.symm⟩
    · exact ⟨.illegalOpcode, BitVec.eq_of_toNat_eq h.symm⟩
    · exact ⟨.reservedField, BitVec.eq_of_toNat_eq h.symm⟩
    · exact ⟨.zeroRounds, BitVec.eq_of_toNat_eq h.symm⟩
    · exact ⟨.saltIndex, BitVec.eq_of_toNat_eq h.symm⟩
    · exact ⟨.saltClass, BitVec.eq_of_toNat_eq h.symm⟩
    · exact ⟨.blockLength, BitVec.eq_of_toNat_eq h.symm⟩

/-- Settles O7: both transports list the bytes of the item from the lowest, and the codes are the numbers 0 to 6. -/
theorem transportIsLeastSignificantByteFirst : Obligations.TransportIsLeastSignificantByteFirst := by
  refine ⟨fun w => ⟨wordOfBytes_bytesOfWord w, rfl, fun j hj => ?word⟩,
    fun r => ⟨rfl, rfl, fun j hj => ?response⟩, ⟨rfl, rfl, rfl, rfl, rfl, rfl, rfl⟩, fun _ => exists_code_eq_iff⟩
  case word => simp [bytesOfWord_eq_map, hj, extractLsb'_byte]
  case response => simp [bytesOfResponse, hj, extractLsb'_byte]

/-- The number of a field fits the field (R83). -/
@[simp] theorem fieldOfNumber_toNat {n : Nat} (x : BitVec n) : fieldOfNumber n x.toNat = some x := by
  rw [fieldOfNumber, if_pos x.isLt, BitVec.ofNat_toNat, BitVec.setWidth_eq]

/-- Settles O8: the operands of each line are the numbers of the command's fields, or the block. -/
theorem assemblerLineStandsForItsCommand : Obligations.AssemblerLineStandsForItsCommand := by
  intro i block
  cases i <;> simp [asmOf, AsmLine.command]

end Sys2Proof.Machine
end

section
/-! The response of every command (30_encoding.md R77, R85): the status a command answers with by its checks, the
verdict of the decoding order as that status, and the data its row gives. -/

namespace Sys2Proof.Machine

/-! ## The status of a command -/

/-- The status of a check: its code if it fails, OK if it passes (R85). -/
def statusOfCheck {α : Type} : Except Status α → Status
  | .ok _ => .ok
  | .error st => st

/-- The status a command answers with, from the configuration and the length of its payload (R85, checks (3) to (5)). -/
def commandStatus (c : Configuration) (len : Nat) : Instr → Status
  | .reset | .step _ _ | .extract32 => .ok
  | .salt rounds noise0 noise1 => statusOfCheck (checkedRounds rounds noise0 noise1)
  | .saltk k => statusOfCheck (checkedIndex c.saltTable k)
  | .absorb => if len = c.blockSize then .ok else .blockLength
  | .extract64 k => statusOfCheck (checkedLong c.saltTable k)
  | .extract128 k1 k2 k3 => statusOfCheck (checkedLongs c.saltTable k1 k2 k3)

/-- The indices that name no salt (60_exceptions.md R176). -/
theorem entry_eq_none_iff {t : SaltTable} {k : BitVec 3} : t.entry k = none ↔ 4 < k.toNat := by
  rw [← Option.not_isSome_iff_eq_none, entry_isSome_iff, Nat.not_le]

/-- The index names a salt of fewer than 24 rounds (60_exceptions.md R178). -/
abbrev NamesShortSalt (t : SaltTable) (k : BitVec 3) : Prop := ∃ salt ∈ t.entry k, salt.rounds < 24

theorem namesShortSalt_iff {t : SaltTable} {k : BitVec 3} {salt : Salt} (hk : t.entry k = some salt) :
    NamesShortSalt t k ↔ ¬ salt.LongDistance := by
  simp [NamesShortSalt, hk, longMin]

theorem statusOfCheck_checkedRounds (rounds : BitVec 24) (noise0 noise1 : Word) :
    statusOfCheck (checkedRounds rounds noise0 noise1) = if rounds = 0 then .zeroRounds else .ok := by
  rw [checkedRounds]
  split <;> rfl

theorem statusOfCheck_checkedIndex (t : SaltTable) (k : BitVec 3) :
    statusOfCheck (checkedIndex t k) = if t.entry k = none then .saltIndex else .ok := by
  rw [checkedIndex]
  cases t.entry k <;> rfl

theorem statusOfCheck_checkedLong (t : SaltTable) (k : BitVec 3) :
    statusOfCheck (checkedLong t k) =
      if t.entry k = none then .saltIndex else if NamesShortSalt t k then .saltClass else .ok := by
  obtain hk | ⟨salt, hk⟩ := (t.entry k).eq_none_or_eq_some
  · simp only [checkedLong, hk, if_true, statusOfCheck]
  · simp only [checkedLong, hk, namesShortSalt_iff hk, reduceCtorEq, if_false, ite_not]
    split <;> rfl

/-- All three indices are checked before the first class (60_exceptions.md R179). -/
theorem statusOfCheck_checkedLongs (t : SaltTable) (k1 k2 k3 : BitVec 3) :
    statusOfCheck (checkedLongs t k1 k2 k3) =
      if t.entry k1 = none ∨ t.entry k2 = none ∨ t.entry k3 = none then .saltIndex
      else if NamesShortSalt t k1 ∨ NamesShortSalt t k2 ∨ NamesShortSalt t k3 then .saltClass else .ok := by
  obtain h1 | ⟨salt1, h1⟩ := (t.entry k1).eq_none_or_eq_some
  · simp only [checkedLongs, h1, true_or, if_true, statusOfCheck]
  obtain h2 | ⟨salt2, h2⟩ := (t.entry k2).eq_none_or_eq_some
  · simp only [checkedLongs, h1, h2, true_or, or_true, if_true, statusOfCheck]
  obtain h3 | ⟨salt3, h3⟩ := (t.entry k3).eq_none_or_eq_some
  · simp only [checkedLongs, h1, h2, h3, or_true, if_true, statusOfCheck]
  simp only [checkedLongs, h1, h2, h3, namesShortSalt_iff h1, namesShortSalt_iff h2, namesShortSalt_iff h3,
    ← not_and_or, reduceCtorEq, or_self, if_false, ite_not]
  split <;> rfl

/-! ## The verdict of the decoding order -/

/-- Some bit of a list of ranges is one. -/
theorem anyBitSet_iff {w : CmdWord} {ranges : List (Nat × Nat)} :
    anyBitSet w ranges = true ↔ ∃ j, (∃ r ∈ ranges, r.2 ≤ j ∧ j ≤ r.1) ∧ w.getLsbD j = true := by
  simp only [anyBitSet, List.any_eq_true, List.mem_range, Bool.and_eq_true, decide_eq_true_eq]
  constructor
  · rintro ⟨r, hr, j, -, hj, hbit⟩
    exact ⟨j, ⟨r, hr, hj⟩, hbit⟩
  · rintro ⟨j, ⟨r, hr, hj⟩, hbit⟩
    exact ⟨r, hr, j, BitVec.lt_of_getLsbD hbit, hj, hbit⟩

/-- The ranges the verdict reads hold the bits R80 reserves. -/
theorem mem_reservedRanges_iff (m : Mnemonic) (j : Nat) :
    (∃ r ∈ reservedRanges m.op.toNat, r.2 ≤ j ∧ j ≤ r.1) ↔ reservedBit m j = true := by
  cases m <;> simp [Mnemonic.op, reservedRanges, reservedBit] <;> omega

/-- The second check of the verdict is the decoder's (R80, R85). -/
theorem anyBitSet_reservedRanges (m : Mnemonic) (w : CmdWord) :
    anyBitSet w (reservedRanges m.op.toNat) = !reservedClear m w := by
  rw [Bool.eq_iff_iff, anyBitSet_iff, Bool.not_eq_true', reservedClear_eq_false_iff]
  simp only [mem_reservedRanges_iff]

/-- The salt indices of a command (R72). -/
def saltIndices : Instr → List (BitVec 3)
  | .saltk k | .extract64 k => [k]
  | .extract128 k1 k2 k3 => [k1, k2, k3]
  | .reset | .step _ _ | .salt _ _ _ | .absorb | .extract32 => []

/-- The index fields the verdict reads are the operands the decoder takes (R72, R73). -/
theorem indexFields_op (m : Mnemonic) (w : CmdWord) : indexFields m.op.toNat w = saltIndices (instrOfFields m w) := by
  cases m <;> rfl

/-- A word the decoder rejects fails the first or the second check (R79, R80, R85). -/
theorem verdict_of_decode_error {c : Configuration} {w : CmdWord} {len : Nat} {e : DecodeError}
    (hd : decode w = .error e) : verdict c w len = e.status := by
  cases e with
  | illegalOpcode => exact if_pos (decode_eq_illegalOpcode_iff.mp hd)
  | reservedField =>
    obtain ⟨m, hop, hclear⟩ := decode_eq_reservedField_iff.mp hd
    have hlegal : ¬ (m.op.toNat = 0 ∨ 9 ≤ m.op.toNat) := by cases m <;> decide
    have hop' : w.extractLsb' 56 8 = m.op := hop
    simp only [verdict, hop', if_neg hlegal, anyBitSet_reservedRanges, hclear]
    rfl

/-- A word that decodes passes the first two checks; the other three are its command's (R85). -/
theorem verdict_of_decode_ok {c : Configuration} {w : CmdWord} {len : Nat} {i : Instr} (hd : decode w = .ok i) :
    verdict c w len = commandStatus c len i := by
  obtain ⟨hop, hclear, hi⟩ := decode_ok_iff.mp hd
  have hop' : w.extractLsb' 56 8 = i.mnemonic.op := op_of_mnemonicOfOp hop
  have hindex : indexFields i.mnemonic.op.toNat w = saltIndices i := by rw [indexFields_op, ← hi]
  simp only [verdict, hop', anyBitSet_reservedRanges, hclear, hindex]
  cases i
  case salt rounds noise0 noise1 =>
    have hrounds : w.extractLsb' 32 24 = rounds := (Instr.salt.inj hi).left.symm
    simp [Instr.mnemonic, Mnemonic.op, saltIndices, commandStatus, statusOfCheck_checkedRounds, hrounds]
  all_goals
    simp [Instr.mnemonic, Mnemonic.op, saltIndices, commandStatus, NamesShortSalt, entry_eq_none_iff,
      statusOfCheck_checkedIndex, statusOfCheck_checkedLong, statusOfCheck_checkedLongs]

/-! ## The response of a command -/

/-- The data an executed command answers with, from the salt table and the lanes before and after it (the table of R77;
43_extract.md R155, R156). -/
def RowData (i : Instr) (table : SaltTable) (e e' : Engine) (data : BitVec 128) : Prop :=
  match i with
  | .reset | .step _ _ | .salt _ _ _ | .saltk _ | .absorb => data = 0
  | .extract32 => data = e.x32.setWidth 128
  | .extract64 _ => data = (e.x32 ++ e'.x32).setWidth 128
  | .extract128 k1 k2 k3 => ∀ a b c, table.entry k1 = some a → table.entry k2 = some b → table.entry k3 = some c →
      data = e.x32 ++ (e.salt stepFn a).x32 ++ ((e.salt stepFn a).salt stepFn b).x32 ++
        (((e.salt stepFn a).salt stepFn b).salt stepFn c).x32

/-- The command `i` goes on from `s` and adds one response with status `st`: the data of its row if it was executed,
data 0 and no change of the lanes if it was refused (R77, R171). -/
def Answers (i : Instr) (s : State) (st : Status) (o : Host.Outcome State Fault Refusal) : Prop :=
  ∃ t data, o = .next t ∧ t.respChan = s.respChan ++ [{ status := st, data := data }] ∧
    (st = .ok → RowData i s.config.saltTable s.engine t.engine data) ∧ (st ≠ .ok → data = 0 ∧ t.engine = s.engine)

section
variable {i : Instr} {s : State}

/-- An executed command ends by responding OK from a state `u` with the responses of `s`. -/
theorem answers_executed {u : State} {data : BitVec 128} (hu : u.respChan = s.respChan)
    (hdata : RowData i s.config.saltTable s.engine u.engine data) : Answers i s .ok (.next (u.respond .ok data)) :=
  ⟨_, data, rfl, by rw [respond_respChan, hu], fun _ => hdata, fun h => absurd rfl h⟩

/-- A refused command ends by refusing from a state `u` with the responses and lanes of `s`. -/
theorem answers_refused {u : State} {st : Status} (hst : st ≠ .ok) (hu : u.respChan = s.respChan)
    (he : u.engine = s.engine) : Answers i s st (.next (u.refuse st)) :=
  ⟨_, 0, rfl, by rw [refuse_respChan, hu], fun h => absurd h hst, fun _ => ⟨rfl, he⟩⟩

theorem answers_saltOrRefuse {checked : Except Status Salt} (hne : ∀ st, checked = .error st → st ≠ .ok)
    (hdata : ∀ e', RowData i s.config.saltTable s.engine e' 0) :
    Answers i s (statusOfCheck checked) (saltOrRefuse checked s) := by
  cases checked with
  | ok salt => exact answers_executed (u := s.withEngine (s.engine.salt stepFn salt)) rfl (hdata _)
  | error st => exact answers_refused (hne st rfl) rfl rfl

end

theorem answers_execSalt (rounds : BitVec 24) (noise0 noise1 : Word) (s : State) :
    Answers (.salt rounds noise0 noise1) s (statusOfCheck (checkedRounds rounds noise0 noise1))
      (execSalt rounds noise0 noise1 s) := by
  refine answers_saltOrRefuse (fun st hst => ?_) fun _ => rfl
  obtain ⟨-, rfl⟩ := checkedRounds_error hst
  decide

theorem answers_execSaltk (k : BitVec 3) (s : State) :
    Answers (.saltk k) s (statusOfCheck (checkedIndex s.config.saltTable k)) (execSaltk k s) := by
  refine answers_saltOrRefuse (fun st hst => ?_) fun _ => rfl
  obtain ⟨-, rfl⟩ := checkedIndex_error hst
  decide

/-- Over the window of a payload ABSORB goes on: no read is outside when the length is right (42_absorb.md R139), and
any other length is refused (R177). -/
theorem answers_execAbsorb {s : State} {b : List Byte} (hn : BlockSizeLegal s.config.blockSize)
    (hw : s.window = Memory.ofPayload b) :
    Answers .absorb s (if b.length = s.config.blockSize then .ok else .blockLength) (execAbsorb s) := by
  rw [execAbsorb, blockLengthOk, hw, ofPayload_length]
  by_cases hlen : b.length = s.config.blockSize
  · have hinside := absorbInputs_ofPayload (hlen ▸ hn)
    rw [hlen] at hinside
    simp only [hlen, beq_self_eq_true, hinside, if_true]
    exact answers_executed rfl rfl
  · simp only [beq_false_of_ne hlen, if_neg hlen]
    exact answers_refused (by decide) rfl rfl

theorem answers_execExtract64 (k : BitVec 3) (s : State) :
    Answers (.extract64 k) s (statusOfCheck (checkedLong s.config.saltTable k)) (execExtract64 k s) := by
  rw [execExtract64]
  cases hc : checkedLong s.config.saltTable k with
  | ok salt => exact answers_executed (u := s.withEngine (s.engine.salt stepFn salt)) rfl rfl
  | error st =>
    refine answers_refused ?_ rfl rfl
    obtain ⟨-, rfl⟩ | ⟨_, -, -, rfl⟩ := checkedLong_error hc <;> decide

theorem answers_execExtract128 (k1 k2 k3 : BitVec 3) (s : State) :
    Answers (.extract128 k1 k2 k3) s (statusOfCheck (checkedLongs s.config.saltTable k1 k2 k3))
      (execExtract128 k1 k2 k3 s) := by
  rw [execExtract128]
  cases hc : checkedLongs s.config.saltTable k1 k2 k3 with
  | ok salts =>
    obtain ⟨salt1, salt2, salt3⟩ := salts
    obtain ⟨⟨h1, h2, h3⟩, -⟩ := checkedLongs_ok.mp hc
    refine answers_executed (u := s.withEngine (((s.engine.salt stepFn salt1).salt stepFn salt2).salt stepFn salt3)) rfl
      fun a b c ha hb hc => ?_
    obtain rfl := Option.some.inj (h1.symm.trans ha)
    obtain rfl := Option.some.inj (h2.symm.trans hb)
    obtain rfl := Option.some.inj (h3.symm.trans hc)
    rfl
  | error st =>
    refine answers_refused ?_ rfl rfl
    obtain rfl | rfl := checkedLongs_error hc <;> decide

/-- Every command answers with the status of its checks, on a legal block size and, for an ABSORB, over the window of a
payload of `len` bytes. -/
theorem answers_exec {i : Instr} {s : State} {len : Nat} (hn : BlockSizeLegal s.config.blockSize)
    (hw : i = .absorb → ∃ b : List Byte, s.window = Memory.ofPayload b ∧ b.length = len) :
    Answers i s (commandStatus s.config len i) (exec i s) := by
  cases i with
  | reset => exact answers_executed (u := s.withEngine Engine.seed) rfl rfl
  | step w0 w1 => exact answers_executed (u := s.withEngine (s.engine.pairStep stepFn w0 w1)) rfl rfl
  | salt rounds noise0 noise1 => exact answers_execSalt rounds noise0 noise1 s
  | saltk k => exact answers_execSaltk k s
  | absorb =>
    obtain ⟨b, hb, rfl⟩ := hw rfl
    exact answers_execAbsorb hn hb
  | extract32 => exact answers_executed (u := s) rfl rfl
  | extract64 k => exact answers_execExtract64 k s
  | extract128 k1 k2 k3 => exact answers_execExtract128 k1 k2 k3 s

/-! ## The response of a step -/

/-- The payload of a taken ABSORB opens its window (20_memory.md R50). -/
theorem takeCommand_absorb_window {s : State} {tk : Taken} (htake : s.takeCommand = some tk)
    (hd : decode tk.word = .ok .absorb) :
    ∃ b : List Byte, (tk.rest.openWindow tk.payload).window = Memory.ofPayload b ∧
      b.length = (tk.payload.getD []).length := by
  obtain ⟨-, -, -, -, -, ⟨hplain, -⟩ | ⟨-, b, hb, -⟩⟩ := takeCommand_some htake
  · rw [bringsBlock_of_decode hd] at hplain
    cases hplain
  · exact ⟨b, by rw [hb, openWindow_some_window], by rw [hb, Option.getD_some]⟩

/-- A step that takes a command on a legal configuration goes on and adds one response, whose status is the verdict on
the word and the length of its payload: the data of the row of the command the word decodes to if the verdict is OK, and
otherwise data 0 and no change of the lanes (R77, R85, R171). -/
theorem step_answers {s : State} {tk : Taken} {st : Status} (hl : s.config.Legal) (htake : s.takeCommand = some tk)
    (hst : verdict s.config tk.word (tk.payload.getD []).length = st) :
    ∃ t data, step s = .next t ∧ t.respChan = s.respChan ++ [{ status := st, data := data }] ∧
      (st = .ok → ∃ i, decode tk.word = .ok i ∧ RowData i s.config.saltTable s.engine t.engine data) ∧
      (st ≠ .ok → data = 0 ∧ t.engine = s.engine) := by
  obtain ⟨-, hengine, hconfig, -, hresp, -⟩ := takeCommand_some htake
  cases hd : decode tk.word with
  | error e =>
    have hne : e.status ≠ .ok := by cases e <;> decide
    rw [← hst, verdict_of_decode_error hd]
    exact ⟨_, 0, step_of_decode_error hl htake hd, by rw [refuse_respChan, hresp], fun h => absurd h hne,
      fun _ => ⟨rfl, hengine⟩⟩
  | ok i =>
    have hanswers : Answers i (tk.rest.openWindow tk.payload) _ (exec i (tk.rest.openWindow tk.payload)) :=
      answers_exec (len := (tk.payload.getD []).length) (by rw [openWindow_config, hconfig]; exact hl.left)
        (fun hi => takeCommand_absorb_window htake (hi ▸ hd))
    simp only [Answers, openWindow_engine, openWindow_config, openWindow_respChan, hengine, hconfig, hresp] at hanswers
    obtain ⟨t, data, hexec, ht, hok, href⟩ := hanswers
    rw [← hst, verdict_of_decode_ok hd]
    exact ⟨t, data, (step_of_decode_ok hl htake hd).trans hexec, ht, fun h => ⟨i, rfl, hok h⟩, href⟩

/-- Settles O46: the verdict is the status of the response of the step. -/
theorem statusFollowsTheDecodingOrder : Obligations.StatusFollowsTheDecodingOrder := by
  intro s tk hl htake
  obtain ⟨t, data, hstep, hresp, -, href⟩ := step_answers hl htake rfl
  exact ⟨t, data, hstep, hresp, fun h => (href h).right⟩

/-- Settles O45: the data of the response by the row of the command the word decodes to. -/
theorem everyCommandGetsOneResponse : Obligations.EveryCommandGetsOneResponse := by
  intro s tk hl htake
  obtain ⟨t, data, hstep, hresp, hok, href⟩ := step_answers hl htake rfl
  refine ⟨t, _, hstep, hresp, fun h => (href h).left, fun h => ?_⟩
  obtain ⟨i, hd, hdata⟩ := hok h
  refine ⟨i, hd, ?_⟩
  cases i with
  | reset | step | salt | saltk | absorb => exact ⟨fun _ => hdata, nofun, nofun, nofun⟩
  | extract32 => exact ⟨by simp [Instr.mnemonic], fun _ => hdata, nofun, nofun⟩
  | extract64 k => exact ⟨by simp [Instr.mnemonic], nofun, fun _ => hdata, nofun⟩
  | extract128 k1 k2 k3 =>
    refine ⟨by simp [Instr.mnemonic], nofun, nofun, ?_⟩
    rintro _ _ _ a b c ⟨⟩
    exact hdata a b c

end Sys2Proof.Machine
end

section
/-! The step of a Register and the pair steps made of it (40_register_step.md): the lane table, the input word that
counts only through its residue, the 16-bit wrapping adder of U2, and the pair steps every command is made of (R100 to
R110, R23, R128). -/

namespace Sys2Proof.Machine

/-! ## The lane table (R102) -/

/-- The exact step with modulus `p` and constant `k`, lane by lane, in numbers. -/
theorem registerStep_exact_lanes {p : Nat} (hp : 0 < p) (hp' : p ≤ 65536) (k : Lanes Nat) (s : Lanes Lane) (w : Word) :
    (registerStep .exact p k s w).l0.toNat = (w.toNat + k.l0 * s.l3.toNat) % p ∧
    (registerStep .exact p k s w).l1.toNat = (s.l0.toNat + k.l1 * s.l3.toNat) % p ∧
    (registerStep .exact p k s w).l2.toNat = (s.l1.toNat + k.l2 * s.l3.toNat) % p ∧
    (registerStep .exact p k s w).l3.toNat = (s.l2.toNat + k.l3 * s.l3.toNat) % p ∧
    (registerStep .exact p k s w).l4.toNat = (w.toNat + k.l4 * s.l7.toNat) % p ∧
    (registerStep .exact p k s w).l5.toNat = (s.l4.toNat + k.l5 * s.l7.toNat) % p ∧
    (registerStep .exact p k s w).l6.toNat = (s.l5.toNat + k.l6 * s.l7.toNat) % p ∧
    (registerStep .exact p k s w).l7.toNat = (s.l6.toNat + k.l7 * s.l7.toNat) % p := by
  simp only [registerStep, inputSum, toNat_ofNat_mod hp hp', Nat.mul_comm, and_self]

/-- Settles O9: the lane table for each Register's modulus and constant. -/
theorem registerStepFollowsTheLaneTable : Obligations.RegisterStepFollowsTheLaneTable := fun s w =>
  ⟨registerStep_exact_lanes (by decide) (by decide) Reg.r251.constant s w,
    registerStep_exact_lanes (by decide) (by decide) Reg.r241.constant s w⟩

/-- Settles O10: a remainder is below its modulus, so no lane of the state before the step matters. -/
theorem registerStepWritesResidues : Obligations.RegisterStepWritesResidues := fun s w =>
  ⟨registerStep_below arith (by decide) (by decide) Reg.r251.constant s w,
    registerStep_below arith (by decide) (by decide) Reg.r241.constant s w⟩

/-- STEP in any state: one pair step and the answer OK (R110). -/
theorem exec_step (w0 w1 : Word) (s : State) :
    exec (.step w0 w1) s = .next ((s.withEngine (s.engine.pairStep stepFn w0 w1)).respond .ok 0) := rfl

/-- Settles O15: STEP is one pair step, whose two halves follow the lane table. -/
theorem stepCommandStepsBothRegisters : Obligations.StepCommandStepsBothRegisters := by
  intro s w0 w1
  have h251 := (registerStepFollowsTheLaneTable s.engine.r251 w0).left
  have h241 := (registerStepFollowsTheLaneTable s.engine.r241 w1).right
  rw [Nat.zero_mul, Nat.add_zero] at h251 h241
  exact ⟨stepFn .r251 s.engine.r251 w0, stepFn .r241 s.engine.r241 w1, exec_step w0 w1 s, h251, h241⟩

/-! ## The input word (R103) -/

/-- The arithmetic and the input word reach the lanes only through the residues of the two input sums. -/
theorem registerStep_congr {a b : Arith} {p : Nat} {k : Lanes Nat} {s : Lanes Lane} {w w' : Word}
    (h0 : inputSum a w.toNat (s.l3.toNat * k.l0) % p = inputSum b w'.toNat (s.l3.toNat * k.l0) % p)
    (h4 : inputSum a w.toNat (s.l7.toNat * k.l4) % p = inputSum b w'.toNat (s.l7.toNat * k.l4) % p) :
    registerStep a p k s w = registerStep b p k s w' := by
  simp only [registerStep, h0, h4]

/-- An input word counts only through its residue. -/
theorem stepFn_congr {r : Reg} {w w' : Word} (h : w.toNat % r.modulus = w'.toNat % r.modulus) (s : Lanes Lane) :
    stepFn r s w = stepFn r s w' :=
  registerStep_congr (Nat.ModEq.add_right _ h) (Nat.ModEq.add_right _ h)

/-- Settles O11: the law of the input word for each Register. -/
theorem inputWordCountsThroughItsResidue : Obligations.InputWordCountsThroughItsResidue := fun s _ _ =>
  ⟨fun h => stepFn_congr (r := .r251) h s, fun h => stepFn_congr (r := .r241) h s⟩

/-! ## The wrapping adder (93_implementation_defined.md U2) -/

/-- Up to 65535 the sum does not wrap. -/
theorem inputSum_wrap16_of_lt {w f : Nat} (h : w + f < 65536) : inputSum .wrap16 w f = inputSum .exact w f :=
  Nat.mod_eq_of_lt h

/-- A sum that wraps once is short by 65536, so its residue is short by the residue of 65536. -/
theorem inputSum_wrap16_mod {w f p : Nat} (hwrap : 65536 ≤ w + f) (honce : w + f < 131072) :
    (inputSum .wrap16 w f % p + 65536 % p) % p = inputSum .exact w f % p := by
  have hsum : (w + f) % 65536 + 65536 = w + f := by omega
  simp only [inputSum]
  rw [← Nat.add_mod, hsum]

/-- On residues a feedback product of lane 0 or lane 4 is at most 240 · 13. -/
theorem feedback_le {r : Reg} {s : Lanes Lane} (hs : s.Below r.modulus) :
    s.l3.toNat * r.constant.l0 ≤ 3120 ∧ s.l7.toNat * r.constant.l4 ≤ 3120 := by
  obtain ⟨-, -, -, h3, -, -, -, h7⟩ := hs
  cases r <;> simp only [Reg.modulus, Reg.constant] at h3 h7 ⊢ <;> omega

section
variable {r : Reg} {s : Lanes Lane} {w : Word} (hs : s.Below r.modulus)
include hs

/-- Up to the input word 62415 no sum wraps. -/
theorem stepFnOf_wrap16_eq_exact (hw : w.toNat ≤ 62415) : stepFnOf .wrap16 r s w = stepFnOf .exact r s w := by
  obtain ⟨h0, h4⟩ := feedback_le hs
  apply registerStep_congr
  · rw [inputSum_wrap16_of_lt (by omega)]
  · rw [inputSum_wrap16_of_lt (by omega)]

/-- Where the sum of lane 0 or of lane 4 wraps, that lane is short by the residue of 65536. -/
theorem stepFnOf_wrap16_input_lanes :
    (65536 ≤ w.toNat + s.l3.toNat * r.constant.l0 →
      ((stepFnOf .wrap16 r s w).l0.toNat + 65536 % r.modulus) % r.modulus = (stepFnOf .exact r s w).l0.toNat) ∧
    (65536 ≤ w.toNat + s.l7.toNat * r.constant.l4 →
      ((stepFnOf .wrap16 r s w).l4.toNat + 65536 % r.modulus) % r.modulus = (stepFnOf .exact r s w).l4.toNat) := by
  obtain ⟨h0, h4⟩ := feedback_le hs
  have hw := w.isLt
  have hp : 0 < r.modulus ∧ r.modulus ≤ 65536 := by cases r <;> decide
  simp only [stepFnOf, registerStep, toNat_ofNat_mod hp.left hp.right]
  exact ⟨fun hwrap => inputSum_wrap16_mod hwrap (by omega), fun hwrap => inputSum_wrap16_mod hwrap (by omega)⟩

end

/-- Settles O12: 65536 leaves 25 modulo 251 and 225 modulo 241. -/
theorem wrappingAdderDiffersOnlyAboveTheBound : Obligations.WrappingAdderDiffersOnlyAboveTheBound :=
  ⟨fun _ _ hw => ⟨fun hs => stepFnOf_wrap16_eq_exact (r := .r251) hs hw,
      fun hs => stepFnOf_wrap16_eq_exact (r := .r241) hs hw⟩,
    fun _ _ hs => stepFnOf_wrap16_input_lanes (r := .r251) hs,
    fun _ _ hs => stepFnOf_wrap16_input_lanes (r := .r241) hs⟩

/-! ## Salts -/

/-- Settles O13: a salt is a sequence of pair steps, and such sequences keep residues. -/
theorem residuesAreKeptUnderEveryStepFunction : Obligations.ResiduesAreKeptUnderEveryStepFunction := by
  intro f hf e he
  refine ⟨fun inputs => feed_residues hf inputs he, fun q n0 n1 => ?_⟩
  rw [saltRounds_eq_feed]
  exact feed_residues hf _ he

/-- Noise words count only through their residues (R128). -/
theorem saltRounds_congr {n0 m0 n1 m1 : Word} (h0 : n0.toNat % 251 = m0.toNat % 251)
    (h1 : n1.toNat % 241 = m1.toNat % 241) (q : Nat) (e : Engine) :
    e.saltRounds stepFn q n0 n1 = e.saltRounds stepFn q m0 m1 := by
  induction q generalizing e with
  | zero => rfl
  | succ q ih =>
    have hpair : e.pairStep stepFn n0 n1 = e.pairStep stepFn m0 m1 :=
      congrArg₂ Engine.mk (stepFn_congr (r := .r251) h0 e.r251) (stepFn_congr (r := .r241) h1 e.r241)
    rw [saltRounds_succ, saltRounds_succ, hpair, ih]

/-- SALT in any state: ZERO_ROUNDS, or the rounds and the answer OK (41_salt.md R122). -/
theorem exec_salt (rounds : BitVec 24) (n0 n1 : Word) (s : State) :
    exec (.salt rounds n0 n1) s =
      .next (if rounds = 0 then s.refuse .zeroRounds
        else (s.withEngine (s.engine.saltRounds stepFn rounds.toNat n0 n1)).respond .ok 0) := by
  simp only [exec, execSalt, checkedRounds]
  split <;> rfl

/-- Adding the modulus to a word leaves its residue, as long as the sum fits. -/
theorem add_modulus_toNat_mod {n : Word} {p : Nat} (h : n.toNat + p ≤ 65535) :
    (n + BitVec.ofNat 16 p).toNat % p = n.toNat % p := by
  have hsum : (n + BitVec.ofNat 16 p).toNat = n.toNat + p := by
    simp only [BitVec.toNat_add, BitVec.toNat_ofNat]
    omega
  rw [hsum, Nat.add_mod_right]

/-- Residues from which an input word of 65535 makes the sum of lane 0 of R251 wrap. -/
def wrappingEngine : Engine := { Engine.seed with r251 := { unitSeed with l3 := 1 } }

/-- Settles O20: the law of the noise words with `n` and `n + p`, and one round at 65284 and 65535 that tells them apart
where the sum 65535 + 7 wraps. -/
theorem noiseWordsCountThroughTheirResidues : Obligations.NoiseWordsCountThroughTheirResidues := by
  refine ⟨?law, saltRounds_congr (by decide) (by decide) 4 Engine.seed, ?wraps⟩
  case law =>
    intro s q n0 n1 h0 h1
    rw [exec_salt, exec_salt, saltRounds_congr (add_modulus_toNat_mod h0) (add_modulus_toNat_mod h1)]
  case wraps => exact ⟨wrappingEngine, 1, 65284, 0, by decide⟩

/-! ## Pair steps of a command (R106) -/

/-- Settles O37: a command other than RESET feeds its inputs. -/
theorem everyStateChangeIsASequenceOfPairSteps : Obligations.EveryStateChangeIsASequenceOfPairSteps := by
  refine ⟨fun _ _ _ => rfl, fun i s t hi h => ?_⟩
  rw [exec_engine h, if_neg hi]
  rfl

/-! ## The number of pair steps of a command (10_state.md R23) -/

theorem saltInputs_length (salt : Salt) : (saltInputs salt).length = salt.rounds := List.length_replicate

/-- An ABSORB that goes on was refused for its length, or read all its inputs inside the window (R134, R177). -/
theorem exec_absorb_next_cases {s t : State} (h : exec .absorb s = .next t) :
    (s.window.length ≠ s.config.blockSize ∧ t = s.closeWindow.refuse .blockLength) ∨
    (s.window.length = s.config.blockSize ∧ ∃ inputs, absorbInputs s.config.blockSize s.window = some inputs ∧
      t = (s.withEngine (s.engine.feed stepFn inputs)).closeWindow.respond .ok 0) := by
  simp only [exec, execAbsorb, blockLengthOk] at h
  split at h
  case h_1 hlen => exact .inl ⟨ne_of_beq_false hlen, (Host.Outcome.next.inj h).symm⟩
  case h_2 hlen =>
    split at h
    case h_1 inputs hinside => exact .inr ⟨eq_of_beq hlen, inputs, hinside, (Host.Outcome.next.inj h).symm⟩
    case h_2 => cases h

theorem inputsOf_absorb_length {c : Configuration} {m : Memory} {inputs : List (Word × Word)}
    (hn : BlockSizeLegal c.blockSize) (hlen : m.length = c.blockSize)
    (hinside : absorbInputs c.blockSize m = some inputs) :
    (inputsOf c m .absorb).length = pairStepsOf c .absorb := by
  rw [inputsOf, if_pos hlen, hinside, Option.getD_some, absorbInputs_length hinside, pairStepsOf]
  split_ifs <;> omega

theorem inputsOf_saltk_length (c : Configuration) (m : Memory) (k : BitVec 3) :
    (inputsOf c m (.saltk k)).length = pairStepsOf c (.saltk k) := by
  cases hk : c.saltTable.entry k <;> simp [inputsOf, pairStepsOf, hk, saltInputs_length]

/-- A check that never fails with OK and whose status is OK has passed. -/
theorem exists_ok_of_statusOfCheck {α : Type} {checked : Except Status α}
    (hne : ∀ st, checked = .error st → st ≠ .ok) (h : statusOfCheck checked = .ok) : ∃ a, checked = .ok a := by
  cases checked with
  | ok a => exact ⟨a, rfl⟩
  | error st => exact absurd h (hne st rfl)

theorem checkedLong_error_ne_ok {t : SaltTable} {k : BitVec 3} {st : Status} (h : checkedLong t k = .error st) :
    st ≠ .ok := by
  obtain ⟨-, rfl⟩ | ⟨-, -, -, rfl⟩ := checkedLong_error h <;> decide

theorem checkedLongs_error_ne_ok {t : SaltTable} {k1 k2 k3 : BitVec 3} {st : Status}
    (h : checkedLongs t k1 k2 k3 = .error st) : st ≠ .ok := by
  obtain rfl | rfl := checkedLongs_error h <;> decide

theorem inputsOf_extract64_length {c : Configuration} {k : BitVec 3} (m : Memory)
    (hok : statusOfCheck (checkedLong c.saltTable k) = .ok) :
    (inputsOf c m (.extract64 k)).length = pairStepsOf c (.extract64 k) := by
  obtain ⟨salt, hc⟩ := exists_ok_of_statusOfCheck (fun _ => checkedLong_error_ne_ok) hok
  obtain ⟨hk, -⟩ := checkedLong_ok.mp hc
  simp [inputsOf_extract64 hc, pairStepsOf, hk, saltInputs_length]

theorem inputsOf_extract128_length {c : Configuration} {k1 k2 k3 : BitVec 3} (m : Memory)
    (hok : statusOfCheck (checkedLongs c.saltTable k1 k2 k3) = .ok) :
    (inputsOf c m (.extract128 k1 k2 k3)).length = pairStepsOf c (.extract128 k1 k2 k3) := by
  obtain ⟨⟨salt1, salt2, salt3⟩, hc⟩ := exists_ok_of_statusOfCheck (fun _ => checkedLongs_error_ne_ok) hok
  obtain ⟨⟨h1, h2, h3⟩, -⟩ := checkedLongs_ok.mp hc
  simp [inputsOf_extract128 hc, pairStepsOf, h1, h2, h3, saltInputs_length, Nat.add_assoc]

/-- A status is read off the one response a command adds. -/
theorem status_eq_of_respChan {l : List Response} {st st' : Status} {d d' : BitVec 128}
    (h : l ++ [{ status := st, data := d }] = l ++ [{ status := st', data := d' }]) : st = st' := by
  have hlast := List.singleton_inj.mp (List.append_cancel_left h)
  exact congrArg Response.status hlast

/-- The status a command is known to answer with is the one in its response. -/
theorem Answers.status_eq {i : Instr} {s t : State} {st st' : Status} {d : BitVec 128}
    {o : Host.Outcome State Fault Refusal} (ha : Answers i s st o) (ho : o = .next t)
    (hr : t.respChan = s.respChan ++ [{ status := st', data := d }]) :
    st = st' := by
  obtain ⟨u, data, hu, hresp, -, -⟩ := ha
  obtain rfl := Host.Outcome.next.inj (hu.symm.trans ho)
  exact status_eq_of_respChan (hresp.symm.trans hr)

/-- A command that is executed on a legal block size has as many input pairs as the table of R23 says. -/
theorem inputsOf_length_of_executed {i : Instr} {s t : State} {d : BitVec 128} (hn : BlockSizeLegal s.config.blockSize)
    (h : exec i s = .next t) (hr : t.respChan = s.respChan ++ [{ status := .ok, data := d }]) :
    (inputsOf s.config s.window i).length = pairStepsOf s.config i := by
  cases i with
  | reset | step | extract32 => rfl
  | salt => exact List.length_replicate
  | saltk k => exact inputsOf_saltk_length s.config s.window k
  | absorb =>
    rcases exec_absorb_next_cases h with ⟨-, rfl⟩ | ⟨hlen, inputs, hinside, -⟩
    · cases status_eq_of_respChan hr
    · exact inputsOf_absorb_length hn hlen hinside
  | extract64 k => exact inputsOf_extract64_length s.window ((answers_execExtract64 k s).status_eq h hr)
  | extract128 k1 k2 k3 =>
    exact inputsOf_extract128_length s.window ((answers_execExtract128 k1 k2 k3 s).status_eq h hr)

/-- A command that answers another status than OK was refused and leaves the lanes as they were (R171). -/
theorem exec_engine_of_refused {i : Instr} {s t : State} {st : Status} {d : BitVec 128} (h : exec i s = .next t)
    (hr : t.respChan = s.respChan ++ [{ status := st, data := d }]) (hst : st ≠ .ok) : t.engine = s.engine := by
  rcases exec_next_cases h with ⟨-, rfl⟩ | ⟨-, data, rfl⟩ | ⟨-, st', -, -, rfl⟩
  case inl => exact absurd (status_eq_of_respChan hr).symm hst
  case inr.inl =>
    rw [respond_respChan, withEngine_respChan, endCommand_respChan] at hr
    exact absurd (status_eq_of_respChan hr).symm hst
  case inr.inr => rw [refuse_engine, endCommand_engine]

/-- Settles O38: each Register steps through its half of one input list, and that list is as long as R23 says. -/
theorem registersAdvanceInLockstep : Obligations.RegistersAdvanceInLockstep := by
  intro i s t st d hn h hr
  have hengine := exec_engine h
  refine ⟨fun hi => by rw [hengine, if_pos hi], ?length, ?halves, exec_engine_of_refused h hr⟩
  case length =>
    rintro rfl
    exact inputsOf_length_of_executed hn h hr
  case halves =>
    intro _ hi
    rw [hengine, if_neg hi]
    exact ⟨feed_r251 .., feed_r241 ..⟩

end Sys2Proof.Machine
end

section
/-! SALT and SALTK (41_salt.md): a salt on each Register by itself, salts in sequence, the salt a command word carries and
the salt an index names (R120 to R127). -/

namespace Sys2Proof.Machine

/-! ## A salt on each Register by itself (R121) -/

/-- Each Register goes through the rounds of a salt with its own noise word. -/
theorem saltRounds_eq_iterate (f : StepFn) (q : Nat) (n0 n1 : Word) (e : Engine) :
    e.saltRounds f q n0 n1 =
      { r251 := (fun r => f .r251 r n0)^[q] e.r251, r241 := (fun r => f .r241 r n1)^[q] e.r241 } := by
  induction q generalizing e with
  | zero => rfl
  | succ q ih => simp only [saltRounds_succ, ih, pairStep_r251, pairStep_r241, Function.iterate_succ_apply]

theorem rounds_ne_zero_iff {rounds : BitVec 24} : rounds ≠ 0 ↔ 0 < rounds.toNat := by
  rw [Nat.pos_iff_ne_zero]
  exact BitVec.toNat_ne_iff_ne.symm

/-- SALT of one round or more passes its check in every state (R122). -/
theorem exec_salt_of_ne_zero {rounds : BitVec 24} (h : rounds ≠ 0) (n0 n1 : Word) (s : State) :
    exec (.salt rounds n0 n1) s =
      .next ((s.withEngine (s.engine.saltRounds stepFn rounds.toNat n0 n1)).respond .ok 0) := by
  rw [exec_salt, if_neg h]

/-- Settles O16: the rounds of a SALT, one Register at a time. -/
theorem saltCommandStepsEachRegisterRoundsTimes : Obligations.SaltCommandStepsEachRegisterRoundsTimes := by
  refine ⟨fun s rounds n0 n1 h => ?_, fun e q n0 n1 => saltRounds_eq_iterate stepFn q n0 n1 e⟩
  rw [exec_salt_of_ne_zero h, saltRounds_eq_iterate]
  rfl

/-! ## Salts in sequence (R126) -/

/-- Two salts with the same noise words are one whose rounds are the sum. -/
theorem saltRounds_saltRounds (f : StepFn) (a b : Nat) (n0 n1 : Word) (e : Engine) :
    (e.saltRounds f a n0 n1).saltRounds f b n0 n1 = e.saltRounds f (a + b) n0 n1 := by
  rw [Nat.add_comm a b]
  exact (Function.iterate_add_apply (Engine.pairStep f n0 n1) b a e).symm

/-- Round counts whose sum the field can carry add as numbers (30_encoding.md R73). -/
theorem rounds_add_toNat {a b : BitVec 24} (h : a.toNat + b.toNat ≤ roundsMax) :
    (a + b).toNat = a.toNat + b.toNat := by
  rw [roundsMax] at h
  exact BitVec.toNat_add_of_lt (by omega)

theorem rounds_add_ne_zero {a b : BitVec 24} (ha : a ≠ 0) (h : a.toNat + b.toNat ≤ roundsMax) : a + b ≠ 0 := by
  rw [rounds_ne_zero_iff] at ha ⊢
  rw [rounds_add_toNat h]
  exact Nat.add_pos_left ha b.toNat

/-- Settles O18: the rounds add, and the last of two one-round salts decides lane 0, so salts with different noise words
do not commute. -/
theorem saltsOfEqualNoiseAdd : Obligations.SaltsOfEqualNoiseAdd := by
  refine ⟨fun e a b n0 n1 => saltRounds_saltRounds stepFn a b n0 n1 e, ?commands, ?order, by decide⟩
  case commands =>
    intro s a b n0 n1 ha hb hsum
    refine ⟨_, _, _, exec_salt_of_ne_zero ha n0 n1 s, exec_salt_of_ne_zero hb n0 n1 _,
      exec_salt_of_ne_zero (rounds_add_ne_zero ha hsum) n0 n1 s, ?_⟩
    simp only [respond_engine, withEngine_engine]
    rw [saltRounds_saltRounds, rounds_add_toNat hsum]
  case order => exact ⟨Engine.seed, 1, 1, 2, 3, 5, 7, by decide⟩

/-! ## A salt of one round (R127) -/

/-- Settles O19: one round of a salt is one pair step. -/
theorem saltOfOneRoundIsStep : Obligations.SaltOfOneRoundIsStep := by
  refine ⟨fun s n0 n1 => ?_, by decide⟩
  have hone : (1 : BitVec 24) ≠ 0 := by decide
  rw [exec_salt_of_ne_zero hone, exec_step]
  rfl

/-! ## Named salts (R124) -/

/-- SALTK of an index that names an entry applies it in every state. -/
theorem exec_saltk_of_entry {s : State} {k : BitVec 3} {salt : Salt} (he : s.config.saltTable.entry k = some salt) :
    exec (.saltk k) s = .next ((s.withEngine (s.engine.salt stepFn salt)).respond .ok 0) := by
  simp only [exec, execSaltk, checkedIndex, he, saltOrRefuse]

/-- The rounds of a legal Salt fit the field of a command word (30_encoding.md R73). -/
theorem roundsField_toNat_of_legal {salt : Salt} (h : salt.Legal) :
    (BitVec.ofNat 24 salt.rounds).toNat = salt.rounds := by
  have hmax : salt.rounds ≤ 2 ^ 24 - 1 := h.right
  rw [BitVec.toNat_ofNat]
  omega

/-- SALT with the fields of a legal Salt applies that Salt in every state. -/
theorem exec_salt_of_legal {salt : Salt} (h : salt.Legal) (s : State) :
    exec (.salt (BitVec.ofNat 24 salt.rounds) salt.noise0 salt.noise1) s =
      .next ((s.withEngine (s.engine.salt stepFn salt)).respond .ok 0) := by
  have hrounds := roundsField_toNat_of_legal h
  have hne : BitVec.ofNat 24 salt.rounds ≠ 0 := by
    rw [rounds_ne_zero_iff, hrounds]
    exact h.left
  rw [exec_salt_of_ne_zero hne, hrounds]
  rfl

/-- Settles O21: the entry of a legal table is a legal Salt, and both commands apply it. -/
theorem namedSaltIsSaltOfItsEntry : Obligations.NamedSaltIsSaltOfItsEntry := by
  refine ⟨fun t => ⟨rfl, rfl, rfl, rfl, rfl⟩, fun s k hlegal hk => ?_⟩
  obtain ⟨salt, he⟩ := Option.isSome_iff_exists.mp ((entry_isSome_iff s.config.saltTable k).mpr hk)
  exact ⟨salt, he, exec_saltk_of_entry he,
    (exec_saltk_of_entry he).trans (exec_salt_of_legal (entry_legal hlegal he) s).symm⟩

end Sys2Proof.Machine
end

section
/-! ABSORB (42_absorb.md): the two lists of input words, the command over the window of a block, the STEP commands with
the same effect, the offsets it reads, and the mirrored main pass (R131 to R139). -/

namespace Sys2Proof.Machine

/-! ## The input lists of a block (R137) -/

section
variable (block : List Byte)

/-- The input pairs of a block: its words for R251 beside its words for R241. -/
def blockInputs : List (Word × Word) := (inputsOfR251 block).zip (inputsOfR241 block)

theorem inputsOfR251_length_eq : (inputsOfR251 block).length = (inputsOfR241 block).length := by
  unfold inputsOfR251 inputsOfR241
  split <;> simp only [List.length_append, List.length_map, List.length_cons]

theorem blockInputs_map_fst : (blockInputs block).map Prod.fst = inputsOfR251 block :=
  List.map_fst_zip (inputsOfR251_length_eq block).le

theorem blockInputs_map_snd : (blockInputs block).map Prod.snd = inputsOfR241 block :=
  List.map_snd_zip (inputsOfR251_length_eq block).ge

/-- Each Register steps through its own list of the block. -/
theorem feed_blockInputs (f : StepFn) (e : Engine) :
    e.feed f (blockInputs block) =
      { r251 := (inputsOfR251 block).foldl (f .r251) e.r251, r241 := (inputsOfR241 block).foldl (f .r241) e.r241 } := by
  rw [← blockInputs_map_fst, ← blockInputs_map_snd, ← feed_r251, ← feed_r241]

end

/-- Over the window of a block of legal size the absorber reads the input pairs of the block. -/
theorem absorbInputs_eq_blockInputs {block : List Byte} (h : BlockSizeLegal block.length) :
    absorbInputs block.length (Memory.ofPayload block) = some (blockInputs block) :=
  absorbInputs_ofPayload h

/-! ## ABSORB of a block -/

/-- ABSORB over the window of a block of the instance completes (R134). -/
theorem exec_absorb_of_block {s : State} {block : List Byte} (hn : BlockSizeLegal s.config.blockSize)
    (hlen : block.length = s.config.blockSize) (hw : s.window = Memory.ofPayload block) :
    exec .absorb s = .next ((s.withEngine (s.engine.feed stepFn (blockInputs block))).closeWindow.respond .ok 0) := by
  have hok : blockLengthOk s.config.blockSize s.window = true := by
    rw [blockLengthOk, hw, ofPayload_length, hlen, beq_self_eq_true]
  have hinside : absorbInputs s.config.blockSize s.window = some (blockInputs block) := by
    rw [hw, ← hlen]
    exact absorbInputs_eq_blockInputs (hlen ▸ hn)
  simp only [exec, execAbsorb, hok, hinside]

/-- Settles O25: an ABSORB feeds the input pairs of the block, and each Register sees its own half of them. -/
theorem absorbFeedsTheBlockFromBothEnds : Obligations.AbsorbFeedsTheBlockFromBothEnds := by
  intro s block hn hlen hw
  rw [exec_absorb_of_block hn hlen hw, feed_blockInputs]
  rfl

/-! ## ABSORB and STEP commands (R137) -/

/-- STEP commands served in order feed their operands, one pair after the other (40_register_step.md R110). -/
theorem serve_steps (inputs : List (Word × Word)) (s : State) :
    ∃ u, serve (inputs.map fun w => Offer.plain (.step w.1 w.2)) s = .next u ∧
      u.engine = s.engine.feed stepFn inputs := by
  induction inputs generalizing s with
  | nil => exact ⟨s, rfl, rfl⟩
  | cons w ws ih => exact ih ((s.withEngine (s.engine.pairStep stepFn w.1 w.2)).respond .ok 0)

/-- Serving one offer executes its command. -/
theorem serve_singleton {o : Offer} {s t : State} (h : exec o.instr (s.openWindow o.payload) = .next t) :
    serve [o] s = .next t := by
  simp only [serve, h]

/-- Settles O26: the ABSORB and the STEP commands feed the same pairs to the same lanes. -/
theorem absorbEqualsASequenceOfSteps : Obligations.AbsorbEqualsASequenceOfSteps := by
  intro s block hn hlen
  obtain ⟨u, hsteps, hu⟩ := serve_steps (blockInputs block) s
  have habsorb := exec_absorb_of_block (s := s.openWindow (some block)) hn hlen rfl
  exact ⟨_, u, serve_singleton habsorb, hsteps, hu.symm⟩

/-! ## The offsets of an ABSORB (R139) -/

/-- Settles O27: the ranges of the offsets are arithmetic on `N`, and an ABSORB that completes does not fault. -/
theorem absorbNeverReadsOutsideTheWindow : Obligations.AbsorbNeverReadsOutsideTheWindow := by
  refine ⟨?main, ?boundary, ?noFault⟩
  case main =>
    intro n i heven hn hi
    omega
  case boundary =>
    intro n heven hn
    omega
  case noFault =>
    intro s block r hn hlen hw hfault
    rw [exec_absorb_of_block hn hlen hw] at hfault
    cases hfault

/-! ## The main pass (R131, R132) -/

/-- The words before the boundary pass are listed by their index. -/
theorem getElem?_map_range_append {n i : Nat} (word : Nat → Word) (rest : List Word) (hi : i < n) :
    ((List.range n).map word ++ rest)[i]? = some (word i) := by
  rw [List.getElem?_append_left (by simpa using hi), List.getElem?_map, List.getElem?_range hi, Option.map_some]

section
variable {block : List Byte} {i : Nat}

/-- The first N/2 input words of R251 are the words from the front (R131). -/
theorem inputsOfR251_getElem? (hi : i < block.length / 2) :
    (inputsOfR251 block)[i]? = some (blockWord block (2 * i)) := by
  rw [inputsOfR251, List.append_assoc]
  exact getElem?_map_range_append _ _ hi

/-- The first N/2 input words of R241 are the words from the tail (R132). -/
theorem inputsOfR241_getElem? (hi : i < block.length / 2) :
    (inputsOfR241 block)[i]? = some (blockWord block (block.length - 2 - 2 * i)) := by
  rw [inputsOfR241, List.append_assoc]
  exact getElem?_map_range_append _ _ hi

/-- The input pairs of the main pass. -/
theorem blockInputs_getElem? (hi : i < block.length / 2) :
    (blockInputs block)[i]? = some (blockWord block (2 * i), blockWord block (block.length - 2 - 2 * i)) :=
  List.getElem?_zip_eq_some.mpr ⟨inputsOfR251_getElem? hi, inputsOfR241_getElem? hi⟩

/-- A block that has a main pass is of even length, so an offset counted from the tail is that of another index counted
from the front. -/
theorem tail_offset_eq (hn : BlockSizeLegal block.length) (hi : i < block.length / 2) :
    block.length - 2 - 2 * i = 2 * (block.length / 2 - 1 - i) := by
  unfold BlockSizeLegal at hn
  omega

/-- The word R241 is fed at `i` is the one R251 is fed at `N/2 - 1 - i`. -/
theorem blockInputs_getElem?_mirror (hn : BlockSizeLegal block.length) (hi : i < block.length / 2) :
    ∃ w, (blockInputs block)[block.length / 2 - 1 - i]? = some (blockWord block (block.length - 2 - 2 * i), w) := by
  rw [tail_offset_eq hn hi]
  exact ⟨_, blockInputs_getElem? (by omega)⟩

end

/-- Settles O28: both words of a pair of the main pass are inside the block, and the pairs are mirrored. -/
theorem mainPassIsMirrored : Obligations.MainPassIsMirrored := by
  intro block hn
  refine ⟨blockInputs block, absorbInputs_eq_blockInputs hn, fun i hi => ?_⟩
  obtain ⟨w, hmirror⟩ := blockInputs_getElem?_mirror hn hi
  exact ⟨_, _, w, blockInputs_getElem? hi, readWord_ofPayload (by omega), readWord_ofPayload (by omega), hmirror⟩

end Sys2Proof.Machine
end

section
/-! Extraction (43_extract.md): what a fold byte is and which values it takes, when the digest word is 0, EXTRACT32 as a
pure read, EXTRACT64 and EXTRACT128 against the sequences of EXTRACT32 and SALTK, and words joined by the host (R150 to
R161). -/

namespace Sys2Proof.Machine

/-! ## The fold of a Register (R150, R151) -/

/-- Lanes below 256 fold to their whole exclusive or. -/
theorem foldByte_toNat_of_lt {x y : Lane} (hx : x.toNat < 256) (hy : y.toNat < 256) :
    (foldByte x y).toNat = (x ^^^ y).toNat := by
  have hxor : x.toNat ^^^ y.toNat < 2 ^ 8 := Nat.xor_lt_two_pow hx hy
  rw [foldByte, BitVec.extractLsb'_toNat, Nat.shiftRight_zero, BitVec.toNat_xor, Nat.mod_eq_of_lt hxor]

/-- The low seven bits of a byte fold with its top bit to the byte. -/
theorem foldByte_low_bits_top_bit (b : Byte) :
    foldByte ((b &&& 0x7F#8).setWidth 16) ((b &&& 0x80#8).setWidth 16) = b := by
  have hparts : b &&& 0x7F#8 ^^^ b &&& 0x80#8 = b := by
    rw [← BitVec.toNat_inj, BitVec.toNat_xor, BitVec.toNat_and, BitVec.toNat_and, ← Nat.and_xor_distrib_left]
    exact Nat.and_two_pow_sub_one_of_lt_two_pow b.isLt
  rw [foldByte, ← BitVec.setWidth_xor, hparts, ← BitVec.setWidth_eq_extractLsb' (by decide),
    BitVec.setWidth_setWidth_of_le b (by decide), BitVec.setWidth_eq]

/-- A byte masked and widened to a lane is at most the mask. -/
theorem toNat_masked_le (b mask : Byte) : ((b &&& mask).setWidth 16).toNat ≤ mask.toNat := by
  rw [BitVec.toNat_setWidth_of_le (by decide), BitVec.toNat_and]
  exact Nat.and_le_right

/-- Settles O31: lanes below 251 are below 256, and every byte is split into its low seven bits and its top bit. -/
theorem foldCutsNothingOff : Obligations.FoldCutsNothingOff := by
  refine ⟨fun s p hp hs => ?whole, fun b => ?every, rfl⟩
  case whole =>
    obtain ⟨h0, h1, h2, h3, h4, h5, h6, h7⟩ := hs
    exact ⟨foldByte_toNat_of_lt (by omega) (by omega), foldByte_toNat_of_lt (by omega) (by omega),
      foldByte_toNat_of_lt (by omega) (by omega), foldByte_toNat_of_lt (by omega) (by omega)⟩
  case every =>
    have hlow : ((b &&& 0x7F#8).setWidth 16).toNat ≤ 127 := toNat_masked_le b 0x7F#8
    have htop : ((b &&& 0x80#8).setWidth 16).toNat ≤ 128 := toNat_masked_le b 0x80#8
    exact ⟨_, _, by omega, by omega, foldByte_low_bits_top_bit b⟩

/-! ## The digest word that is 0 (R161) -/

theorem digestByte_eq_zero_iff {a0 a4 b0 b4 : Lane} : digestByte a0 a4 b0 b4 = 0 ↔ foldByte a0 a4 = foldByte b0 b4 :=
  BitVec.xor_eq_zero_iff

/-- The digest word is 0 when each of its bytes is (R152). -/
theorem x32_eq_zero_iff {e : Engine} :
    e.x32 = 0 ↔
      digestByte e.r251.l0 e.r251.l4 e.r241.l0 e.r241.l4 = 0 ∧
      digestByte e.r251.l1 e.r251.l5 e.r241.l1 e.r241.l5 = 0 ∧
      digestByte e.r251.l2 e.r251.l6 e.r241.l2 e.r241.l6 = 0 ∧
      digestByte e.r251.l3 e.r251.l7 e.r241.l3 e.r241.l7 = 0 := by
  simp only [BitVec.ofNat_eq_ofNat, ← BitVec.toNat_inj, x32_toNat, BitVec.toNat_ofNat, Nat.zero_mod]
  omega

/-- Lane `g` and lane `g + 4` agree, for each `g`. -/
def HalvesAgree (s : Lanes Lane) : Prop := s.l0 = s.l4 ∧ s.l1 = s.l5 ∧ s.l2 = s.l6 ∧ s.l3 = s.l7

/-- Agreeing lanes fold to 0. -/
theorem foldByte_self (x : Lane) : foldByte x x = 0 := by
  rw [foldByte, BitVec.xor_self]
  rfl

theorem x32_eq_zero_of_halvesAgree {e : Engine} (h251 : HalvesAgree e.r251) (h241 : HalvesAgree e.r241) :
    e.x32 = 0 := by
  obtain ⟨a0, a1, a2, a3⟩ := h251
  obtain ⟨b0, b1, b2, b3⟩ := h241
  simp only [x32_eq_zero_iff, digestByte_eq_zero_iff, a0, a1, a2, a3, b0, b1, b2, b3, foldByte_self, and_self]

/-- What holds of a Register `n` steps after the unit seed, for `n` up to 3: the halves agree, and the seed's 1 and the
input words have not come above lane `n` of their half, so that lane 3 feeds nothing back before the fourth step. -/
def FilledUpTo (n : Nat) (s : Lanes Lane) : Prop :=
  HalvesAgree s ∧ (n < 1 → s.l1 = 0) ∧ (n < 2 → s.l2 = 0) ∧ (n < 3 → s.l3 = 0)

theorem unitSeed_filledUpTo : FilledUpTo 0 unitSeed :=
  ⟨⟨rfl, rfl, rfl, rfl⟩, fun _ => rfl, fun _ => rfl, fun _ => rfl⟩

/-- While no product is fed back, a step moves each half up by one lane below the same input (R101, R102). -/
theorem registerStep_filledUpTo {a : Arith} {p : Nat} {k : Lanes Nat} {n : Nat} {s : Lanes Lane} (hn : n < 3)
    (h : FilledUpTo n s) (w : Word) : FilledUpTo (n + 1) (registerStep a p k s w) := by
  obtain ⟨⟨h04, h15, h26, h37⟩, h1, h2, h3⟩ := h
  have hl3 : s.l3.toNat = 0 := by rw [h3 hn]; rfl
  have hl7 : s.l7.toNat = 0 := by rw [← h37, hl3]
  refine ⟨?agree, fun h => ?lane1, fun h => ?lane2, fun h => ?lane3⟩
  case agree => simp only [HalvesAgree, registerStep, hl3, hl7, h04, h15, h26, Nat.zero_mul, and_self]
  case lane1 => omega
  case lane2 => simp [registerStep, hl3, h1 (by omega)]
  case lane3 => simp [registerStep, hl3, h2 (by omega)]

/-- The halves of a Register agree through the third step after the unit seed, whatever the input words. -/
theorem foldl_stepFn_halvesAgree (r : Reg) {ws : List Word} {n : Nat} {s : Lanes Lane} (h : FilledUpTo n s)
    (hn : n + ws.length ≤ 3) : HalvesAgree (ws.foldl (stepFn r) s) := by
  induction ws generalizing n s with
  | nil => exact h.left
  | cons w ws ih =>
    rw [List.length_cons] at hn
    exact ih (registerStep_filledUpTo (by omega) h w) (by omega)

theorem feed_seed_x32 {inputs : List (Word × Word)} (h : inputs.length ≤ 3) :
    (Engine.seed.feed stepFn inputs).x32 = 0 := by
  apply x32_eq_zero_of_halvesAgree
  · rw [feed_r251]
    exact foldl_stepFn_halvesAgree .r251 unitSeed_filledUpTo (by simpa using h)
  · rw [feed_r241]
    exact foldl_stepFn_halvesAgree .r241 unitSeed_filledUpTo (by simpa using h)

/-- Settles O36: the word by its bytes, and the halves that agree through the third step. -/
theorem digestWordIsZeroUntilTheFourthStep : Obligations.DigestWordIsZeroUntilTheFourthStep := by
  refine ⟨fun e => ?iff, fun e h => ?agree, fun inputs => feed_seed_x32, by decide⟩
  case iff => simp only [x32_eq_zero_iff, digestByte_eq_zero_iff]
  case agree => exact x32_eq_zero_of_halvesAgree (h e.r251 (by simp)) (h e.r241 (by simp))

/-! ## EXTRACT32 (R153, R160) -/

/-- Serving an offer without a payload executes its command and goes on from there. -/
theorem serve_plain_cons {i : Instr} {s t : State} (h : exec i s = .next t) (os : List Offer) :
    serve (Offer.plain i :: os) s = serve os t := by
  simp only [serve, Offer.plain, openWindow_none, h]

/-- Settles O30: the answer of EXTRACT32 is the digest word, right-aligned, and it leaves the lanes. -/
theorem extractWordIsAPureRead : Obligations.ExtractWordIsAPureRead := by
  intro s
  refine ⟨s.engine.x32.setWidth 128, exec_extract32 s, ?twice, ?word⟩
  case twice =>
    rw [serve_plain_cons (exec_extract32 s), serve_plain_cons (exec_extract32 _)]
    simp only [serve, State.respond, List.append_assoc, List.singleton_append]
  case word =>
    rw [BitVec.toNat_setWidth_of_le (by decide), x32_toNat]
    simp only [digestByte_toNat]

/-! ## EXTRACT64 and EXTRACT128 (R155 to R157) -/

/-- EXTRACT64 of an index that names a long-distance salt reads around that salt in every state. -/
theorem exec_extract64_of_entry {s : State} {k : BitVec 3} {salt : Salt} (he : s.config.saltTable.entry k = some salt)
    (hl : salt.LongDistance) :
    exec (.extract64 k) s =
      .next ((s.withEngine (s.engine.salt stepFn salt)).respond .ok
        ((s.engine.x32 ++ (s.engine.salt stepFn salt).x32).setWidth 128)) := by
  simp only [exec, execExtract64, checkedLong_ok.mpr ⟨he, hl⟩]

/-- EXTRACT128 of indices that name long-distance salts reads around those salts in every state. -/
theorem exec_extract128_of_entries {s : State} {k1 k2 k3 : BitVec 3} {a b c : Salt}
    (ha : s.config.saltTable.entry k1 = some a) (hb : s.config.saltTable.entry k2 = some b)
    (hc : s.config.saltTable.entry k3 = some c) (hla : a.LongDistance) (hlb : b.LongDistance)
    (hlc : c.LongDistance) :
    exec (.extract128 k1 k2 k3) s =
      .next ((s.withEngine (((s.engine.salt stepFn a).salt stepFn b).salt stepFn c)).respond .ok
        (s.engine.x32 ++ (s.engine.salt stepFn a).x32 ++ ((s.engine.salt stepFn a).salt stepFn b).x32 ++
          (((s.engine.salt stepFn a).salt stepFn b).salt stepFn c).x32)) := by
  simp only [exec, execExtract128, checkedLongs_ok.mpr ⟨⟨ha, hb, hc⟩, hla, hlb, hlc⟩]

/-- Settles O32: EXTRACT64 passes its check, and its answer is the two words joined. -/
theorem extractTwoWordsAroundASalt : Obligations.ExtractTwoWordsAroundASalt := by
  intro s k salt he hl
  refine ⟨_, exec_extract64_of_entry he hl, ?_⟩
  rw [BitVec.toNat_setWidth_of_le (by decide), append_toNat]
  rfl

/-- Four words joined, the first one highest (R156). -/
theorem append_four_toNat (w0 w1 w2 w3 : BitVec 32) :
    (w0 ++ w1 ++ w2 ++ w3).toNat = 2 ^ 96 * w0.toNat + 2 ^ 64 * w1.toNat + 2 ^ 32 * w2.toNat + w3.toNat := by
  simp only [append_toNat]
  omega

/-- Settles O33: EXTRACT128 passes its checks, and its answer is the four words joined. -/
theorem extractFourWordsAroundThreeSalts : Obligations.ExtractFourWordsAroundThreeSalts := by
  intro s k1 k2 k3 a b c ha hb hc hla hlb hlc
  exact ⟨_, _, _, _, rfl, rfl, rfl, exec_extract128_of_entries ha hb hc hla hlb hlc, append_four_toNat ..⟩

/-! ## The sequences of EXTRACT32 and SALTK (R159) -/

/-- The state after an EXTRACT32 and a SALTK that names `salt`. -/
def State.readAndSalt (s : State) (salt : Salt) : State :=
  ((s.respond .ok (s.engine.x32.setWidth 128)).withEngine (s.engine.salt stepFn salt)).respond .ok 0

@[simp] theorem readAndSalt_engine (s : State) (salt : Salt) :
    (s.readAndSalt salt).engine = s.engine.salt stepFn salt := rfl
@[simp] theorem readAndSalt_config (s : State) (salt : Salt) : (s.readAndSalt salt).config = s.config := rfl
@[simp] theorem readAndSalt_respChan (s : State) (salt : Salt) :
    (s.readAndSalt salt).respChan =
      s.respChan ++ [{ status := .ok, data := s.engine.x32.setWidth 128 }, { status := .ok, data := 0 }] :=
  List.append_assoc ..

/-- EXTRACT32 and SALTK of an index that names an entry are served whatever the entry's class. -/
theorem serve_readAndSalt {s : State} {k : BitVec 3} {salt : Salt} (he : s.config.saltTable.entry k = some salt)
    (os : List Offer) :
    serve (Offer.plain .extract32 :: Offer.plain (.saltk k) :: os) s = serve os (s.readAndSalt salt) := by
  rw [serve_plain_cons (exec_extract32 s)]
  exact serve_plain_cons (exec_saltk_of_entry (s := s.respond .ok (s.engine.x32.setWidth 128)) he) os

/-- An EXTRACT32 that ends a sequence. -/
theorem serve_extract32 (s : State) :
    serve [Offer.plain .extract32] s = .next (s.respond .ok (s.engine.x32.setWidth 128)) :=
  serve_plain_cons (exec_extract32 s) []

/-- Settles O35: each pair of EXTRACT32 and SALTK reads the word before the salt, and the last EXTRACT32 the word after
all of them. -/
theorem compositeExtractionsEqualTheirSequences : Obligations.CompositeExtractionsEqualTheirSequences := by
  refine ⟨fun s k salt he => ?two, fun s k1 k2 k3 a b c ha hb hc => ?four⟩
  case two =>
    exact ⟨_, _, _, (serve_readAndSalt he _).trans (serve_extract32 _), by simp, exec_extract64_of_entry he⟩
  case four =>
    have hserve := (serve_readAndSalt ha _).trans <| (serve_readAndSalt (s := s.readAndSalt a) hb _).trans <|
      (serve_readAndSalt (s := (s.readAndSalt a).readAndSalt b) hc _).trans (serve_extract32 _)
    exact ⟨_, _, _, _, _, hserve, by simp, exec_extract128_of_entries ha hb hc⟩

/-! ## Words joined by the host (R156, R158) -/

/-- One more word stands below the words before it. -/
theorem joinNumber_append_singleton (ws : List (BitVec 32)) (w : BitVec 32) :
    joinNumber (ws ++ [w]) = 4294967296 * joinNumber ws + w.toNat :=
  List.foldl_append

/-- `k` words join to a number of at most `32 k` bits. -/
theorem joinNumber_lt (ws : List (BitVec 32)) : joinNumber ws < 2 ^ (32 * ws.length) := by
  induction ws using List.reverseRecOn with
  | nil => decide
  | append_singleton ws w ih =>
    have hw := w.isLt
    rw [joinNumber_append_singleton, List.length_append, List.length_singleton, Nat.mul_succ, Nat.pow_add]
    omega

/-- The digest of four words is their number, which fits 128 bits. -/
theorem joinWords_toNat {ws : List (BitVec 32)} (h : ws.length = 4) :
    ∃ d, joinWords ws = some d ∧ d.toNat = joinNumber ws := by
  have hlt := joinNumber_lt ws
  rw [h] at hlt
  exact ⟨_, if_pos h, Nat.mod_eq_of_lt hlt⟩

theorem joinNumber_four (w0 w1 w2 w3 : BitVec 32) :
    joinNumber [w0, w1, w2, w3] = 2 ^ 96 * w0.toNat + 2 ^ 64 * w1.toNat + 2 ^ 32 * w2.toNat + w3.toNat := by
  simp only [joinNumber, List.foldl_cons, List.foldl_nil]
  omega

/-- Settles O58: a join is a fold to the left, four words fit 128 bits, and the digest takes no other number of them. -/
theorem wordsAreJoinedMostSignificantFirst : Obligations.WordsAreJoinedMostSignificantFirst := by
  refine ⟨joinNumber_append_singleton, rfl, joinNumber_lt, fun w0 w1 w2 w3 => ?four, fun ws h => if_neg h⟩
  rw [← joinNumber_four]
  exact joinWords_toNat rfl

end Sys2Proof.Machine
end

section
/-! Refusals (60_exceptions.md): one word for each command, the state a refused command leaves, and the code it answers,
which is decided from the command word and the payload length alone (R170 to R179). -/

namespace Sys2Proof.Machine

/-! ## One word for each command (R174) -/

/-- Words that agree on a field agree on each of its bits. -/
theorem getLsbD_eq_of_extractLsb'_eq {w w' : CmdWord} {start len j : Nat}
    (h : w.extractLsb' start len = w'.extractLsb' start len) (hj : start ≤ j ∧ j < start + len) :
    w.getLsbD j = w'.getLsbD j := by
  have hbit := congrArg (BitVec.getLsbD · (j - start)) h
  have hlt : j - start < len := by omega
  simpa only [BitVec.getLsbD_extractLsb', hlt, decide_true, Bool.true_and, Nat.add_sub_cancel' hj.left] using hbit

/-- The bits below the opcode that a command does not reserve are those of its operands (30_encoding.md R72, R80). -/
theorem getLsbD_eq_of_instrOfFields_eq {m : Mnemonic} {w w' : CmdWord} {j : Nat}
    (h : instrOfFields m w = instrOfFields m w') (hlow : j < 56) (hfree : reservedBit m j = false) :
    w.getLsbD j = w'.getLsbD j := by
  cases m <;> simp only [reservedBit, decide_eq_false_iff_not] at hfree
  case reset | absorb | extract32 => omega
  case step =>
    obtain ⟨h0, h1⟩ := Instr.step.inj h
    by_cases hj : j < 16
    · exact getLsbD_eq_of_extractLsb'_eq h0 (by omega)
    · exact getLsbD_eq_of_extractLsb'_eq h1 (by omega)
  case salt =>
    obtain ⟨hrounds, h0, h1⟩ := Instr.salt.inj h
    by_cases hj : j < 16
    · exact getLsbD_eq_of_extractLsb'_eq h0 (by omega)
    by_cases hj' : j < 32
    · exact getLsbD_eq_of_extractLsb'_eq h1 (by omega)
    · exact getLsbD_eq_of_extractLsb'_eq hrounds (by omega)
  case saltk => exact getLsbD_eq_of_extractLsb'_eq (Instr.saltk.inj h) (by omega)
  case extract64 => exact getLsbD_eq_of_extractLsb'_eq (Instr.extract64.inj h) (by omega)
  case extract128 =>
    obtain ⟨hka, hkb, hkc⟩ := Instr.extract128.inj h
    by_cases hj : j < 35
    · exact getLsbD_eq_of_extractLsb'_eq hka (by omega)
    by_cases hj' : j < 38
    · exact getLsbD_eq_of_extractLsb'_eq hkb (by omega)
    · exact getLsbD_eq_of_extractLsb'_eq hkc (by omega)

/-- No two words decode to one command: each bit of a word is one of the opcode, a reserved one, or one of an operand.
-/
theorem decode_injective {w w' : CmdWord} {i : Instr} (h : decode w = .ok i) (h' : decode w' = .ok i) : w = w' := by
  obtain ⟨hop, hclear, hi⟩ := decode_ok_iff.mp h
  obtain ⟨hop', hclear', hi'⟩ := decode_ok_iff.mp h'
  have hopField : opField w = opField w' := (op_of_mnemonicOfOp hop).trans (op_of_mnemonicOfOp hop').symm
  refine BitVec.eq_of_getLsbD_eq fun j hj => ?_
  by_cases htop : 56 ≤ j
  · exact getLsbD_eq_of_extractLsb'_eq hopField ⟨htop, hj⟩
  cases hr : reservedBit i.mnemonic j with
  | true => rw [reservedClear_iff.mp hclear j hr, reservedClear_iff.mp hclear' j hr]
  | false => exact getLsbD_eq_of_instrOfFields_eq (hi.symm.trans hi') (Nat.lt_of_not_le htop) hr

/-- Settles O3: the encoding of a command decodes to it, and no second word does. -/
theorem onlyTheEncodingDecodesToACommand : Obligations.OnlyTheEncodingDecodesToACommand :=
  fun _ i h => decode_injective h (decode_encode i)

/-! ## A refused command (R171) -/

/-- A check whose status is a refusal has failed with it. -/
theorem eq_error_of_statusOfCheck {α : Type} {checked : Except Status α} {st : Status}
    (h : statusOfCheck checked = st) (hst : st ≠ .ok) : checked = .error st := by
  cases checked with
  | ok a => exact absurd h.symm hst
  | error st' => exact congrArg Except.error h

/-- In every state a command whose checks give a refusal answers it and changes nothing else; an ABSORB closes its
window, which discards the payload. -/
theorem exec_of_refused {i : Instr} {s : State} {st : Status}
    (h : commandStatus s.config s.window.length i = st) (hst : st ≠ .ok) :
    exec i s = .next ((endCommand i s).refuse st) := by
  cases i with
  | reset | step | extract32 => exact absurd h.symm hst
  | salt => simp only [exec, execSalt, eq_error_of_statusOfCheck h hst, saltOrRefuse]; rfl
  | saltk => simp only [exec, execSaltk, eq_error_of_statusOfCheck h hst, saltOrRefuse]; rfl
  | absorb =>
    rw [commandStatus] at h
    split at h
    case isTrue => exact absurd h.symm hst
    case isFalse hlen =>
      subst h
      simp only [exec, execAbsorb, blockLengthOk, beq_false_of_ne hlen]
      rfl
  | extract64 => simp only [exec, execExtract64, eq_error_of_statusOfCheck h hst]; rfl
  | extract128 => simp only [exec, execExtract128, eq_error_of_statusOfCheck h hst]; rfl

/-- The status in the response of a command that goes on is that of its checks, in every state. -/
theorem commandStatus_of_exec {i : Instr} {s t : State} {st : Status} {d : BitVec 128} (h : exec i s = .next t)
    (hr : t.respChan = s.respChan ++ [{ status := st, data := d }]) :
    commandStatus s.config s.window.length i = st := by
  cases i with
  | reset | step | extract32 =>
    obtain rfl := Host.Outcome.next.inj h
    exact status_eq_of_respChan hr
  | salt rounds noise0 noise1 => exact (answers_execSalt rounds noise0 noise1 s).status_eq h hr
  | saltk k => exact (answers_execSaltk k s).status_eq h hr
  | absorb =>
    rw [commandStatus]
    rcases exec_absorb_next_cases h with ⟨hlen, rfl⟩ | ⟨hlen, inputs, -, rfl⟩
    · rw [if_neg hlen]
      exact status_eq_of_respChan hr
    · rw [if_pos hlen]
      exact status_eq_of_respChan hr
  | extract64 k => exact (answers_execExtract64 k s).status_eq h hr
  | extract128 k1 k2 k3 => exact (answers_execExtract128 k1 k2 k3 s).status_eq h hr

/-- A command that answers a refusal answers it with data 0 and leaves the state as it was, its window closed if it is
an ABSORB. -/
theorem exec_eq_refuse_of_status {i : Instr} {s t : State} {st : Status} {d : BitVec 128} (h : exec i s = .next t)
    (hr : t.respChan = s.respChan ++ [{ status := st, data := d }]) (hst : st ≠ .ok) :
    t = (endCommand i s).refuse st := by
  rw [exec_of_refused (commandStatus_of_exec h hr) hst] at h
  exact (Host.Outcome.next.inj h).symm

@[simp] theorem openWindow_closeWindow (s : State) (p : Option (List Byte)) :
    (s.openWindow p).closeWindow = s.closeWindow := by
  cases p <;> rfl

theorem closeWindow_eq_self {s : State} (hw : s.window = []) : s.closeWindow = s := by
  rw [State.closeWindow, ← hw]

/-- Opening the window for a taken command and ending that command leaves the empty window there was (20_memory.md
R50). -/
theorem endCommand_openWindow {s : State} {tk : Taken} {i : Instr} (htake : s.takeCommand = some tk)
    (hd : decode tk.word = .ok i) (hw : s.window = []) :
    endCommand i (tk.rest.openWindow tk.payload) = tk.rest := by
  obtain ⟨-, -, -, hrest, -⟩ := takeCommand_some htake
  rw [endCommand]
  split
  case isTrue => rw [openWindow_closeWindow, closeWindow_eq_self (hrest.trans hw)]
  case isFalse hi => rw [takeCommand_payload_none htake hd hi, openWindow_none]

/-- A step that answers a refusal took a command, and refused it in the state without that command. -/
theorem step_refused {s t : State} {st : Status} {d : BitVec 128} (hw : s.window = []) (h : step s = .next t)
    (hr : t.respChan = s.respChan ++ [{ status := st, data := d }]) (hst : st ≠ .ok) :
    ∃ tk, s.takeCommand = some tk ∧ t = tk.rest.refuse st := by
  obtain ⟨-, ⟨-, rfl⟩ | ⟨tk, htake, hperform⟩⟩ := step_next_cases h
  · exact absurd hr (by simp)
  refine ⟨tk, htake, ?_⟩
  obtain ⟨-, -, -, -, hresp, -⟩ := takeCommand_some htake
  rcases perform_next_cases hperform with ⟨e, -, rfl⟩ | ⟨i, hd, hexec⟩
  · rw [refuse_respChan, hresp] at hr
    rw [status_eq_of_respChan hr]
  · rw [← hresp, ← openWindow_respChan tk.rest tk.payload] at hr
    rw [exec_eq_refuse_of_status hexec hr hst, endCommand_openWindow htake hd hw]

/-- Settles O44: the state without a taken command differs from the old one by the word, and by the payload if the word
brings one. -/
theorem refusedCommandsChangeNothing : Obligations.RefusedCommandsChangeNothing := by
  intro s t st d hw h hr hst
  obtain ⟨tk, htake, rfl⟩ := step_refused hw h hr hst
  obtain ⟨hcmd, hengine, hconfig, hwindow, hresp, hpayload⟩ := takeCommand_some htake
  rw [refuse_respChan, hresp] at hr
  have hlast := List.singleton_inj.mp (List.append_cancel_left hr)
  refine ⟨(congrArg Response.data hlast).symm, tk.word, tk.rest.cmdChan, hcmd, ?_⟩
  simp only [State.refuse, State.respond, ← hengine, ← hconfig, ← hwindow]
  rcases hpayload with ⟨hplain, -, hblock⟩ | ⟨hbrings, b, -, hblock⟩
  · exact .inl ⟨bringsBlock_eq_false_iff.mp hplain, by rw [← hblock]⟩
  · exact .inr ⟨bringsBlock_iff.mp hbrings, b, tk.rest.blockChan, hblock, rfl⟩

/-! ## What decides a refusal (R170) -/

/-- A legal instance with no command to take waits (log 5). -/
theorem step_of_takeCommand_none {s : State} (hl : s.config.Legal) (h : s.takeCommand = none) : step s = .next s := by
  simp only [step, sequenceOne, if_pos hl, h]

/-- Settles O47: a step waits or answers the verdict, which reads the configuration, the word and the length of the
payload. -/
theorem noCommandFaults : Obligations.NoCommandFaults := by
  refine ⟨fun s hl => ?goesOn, fun s s' tk tk' hl hconfig htake htake' hword hlen => ?decided⟩
  case goesOn =>
    obtain hnone | ⟨tk, htake⟩ := s.takeCommand.eq_none_or_eq_some
    · exact ⟨s, step_of_takeCommand_none hl hnone⟩
    · obtain ⟨t, -, hstep, -⟩ := step_answers hl htake rfl
      exact ⟨t, hstep⟩
  case decided =>
    have hverdict : verdict s'.config tk'.word (tk'.payload.getD []).length =
        verdict s.config tk.word (tk.payload.getD []).length := by rw [hconfig, hword, hlen]
    obtain ⟨t, d, hstep, hresp, -, href⟩ := step_answers hl htake rfl
    obtain ⟨t', d', hstep', hresp', -, href'⟩ := step_answers (hconfig ▸ hl) htake' hverdict
    exact ⟨t, t', _, d, d', hstep, hstep', hresp, hresp', fun h => ⟨(href h).right, (href' h).right⟩⟩

/-! ## The codes ZERO_ROUNDS, SALT_INDEX, SALT_CLASS and BLOCK_LENGTH (R175 to R179) -/

/-- Settles O17: zero rounds fail the check of SALT. -/
theorem zeroRoundsIsRefused : Obligations.ZeroRoundsIsRefused :=
  fun s n0 n1 => exec_of_refused (s := s) (i := .salt 0 n0 n1) rfl (by decide)

/-- Settles O22: the index check of each command fails, and in EXTRACT128 it comes before every class check. -/
theorem indicesThatNameNoSaltAreRefused : Obligations.IndicesThatNameNoSaltAreRefused := by
  have hst : Status.saltIndex ≠ .ok := by decide
  intro s k k1 k2 k3
  simp only [← entry_eq_none_iff (t := s.config.saltTable)]
  refine ⟨fun hk => ⟨exec_of_refused (i := .saltk k) ?saltk hst, exec_of_refused (i := .extract64 k) ?extract64 hst⟩,
    fun hk => exec_of_refused (i := .extract128 k1 k2 k3) ?extract128 hst⟩
  case saltk => exact (statusOfCheck_checkedIndex ..).trans (if_pos hk)
  case extract64 => exact (statusOfCheck_checkedLong ..).trans (if_pos hk)
  case extract128 => exact (statusOfCheck_checkedLongs ..).trans (if_pos hk)

/-- Only the composite extractions check the class of a salt (R178). -/
theorem mnemonic_of_commandStatus_eq_saltClass {c : Configuration} {len : Nat} {i : Instr}
    (h : commandStatus c len i = .saltClass) : i.mnemonic = .extract64 ∨ i.mnemonic = .extract128 := by
  cases i with
  | reset | step | extract32 => cases h
  | salt =>
    rw [commandStatus, statusOfCheck_checkedRounds] at h
    split at h <;> cases h
  | saltk =>
    rw [commandStatus, statusOfCheck_checkedIndex] at h
    split at h <;> cases h
  | absorb =>
    rw [commandStatus] at h
    split at h <;> cases h
  | extract64 => exact .inl rfl
  | extract128 => exact .inr rfl

/-- Settles O34: the class check fails after the indices have passed, and no other command makes it. -/
theorem shortSaltsAreRefusedBetweenWords : Obligations.ShortSaltsAreRefusedBetweenWords := by
  have hst : Status.saltClass ≠ .ok := by decide
  refine ⟨fun s k salt hk hshort => exec_of_refused (i := .extract64 k) ?extract64 hst,
    fun s k1 k2 k3 a b c ha hb hc hshort => exec_of_refused (i := .extract128 k1 k2 k3) ?extract128 hst,
    fun i s t d h hr => mnemonic_of_commandStatus_eq_saltClass (commandStatus_of_exec h hr)⟩
  case extract64 =>
    rw [commandStatus, statusOfCheck_checkedLong, if_neg (by simp [hk]), if_pos ⟨salt, hk, hshort⟩]
  case extract128 =>
    have hclass : NamesShortSalt s.config.saltTable k1 ∨ NamesShortSalt s.config.saltTable k2 ∨
        NamesShortSalt s.config.saltTable k3 :=
      hshort.imp (⟨a, ha, ·⟩) (Or.imp (⟨b, hb, ·⟩) (⟨c, hc, ·⟩))
    rw [commandStatus, statusOfCheck_checkedLongs, if_neg (by simp [ha, hb, hc]), if_pos hclass]

/-- Settles O29: the payload's window has its length, which the check of ABSORB compares with `N`. -/
theorem blocksOfAnotherLengthAreRefused : Obligations.BlocksOfAnotherLengthAreRefused := by
  intro s payload hlen
  have hstatus : commandStatus s.config (Memory.ofPayload payload).length .absorb = .blockLength := by
    rw [commandStatus, ofPayload_length, if_neg hlen]
  exact exec_of_refused (s := s.openWindow (some payload)) hstatus (by decide)

end Sys2Proof.Machine
end

section
/-! The host's blocks (70_reset_and_hazards.md R218): a file is cut and padded into `⌈length / N⌉` blocks, which hold
the file and fewer than `N` zero bytes. -/

namespace Sys2Proof.Machine

/-! ## Cutting a file into blocks (R218) -/

section
variable {n : Nat}

/-- No bytes make no block, whatever the bound on the number of blocks. -/
@[simp] theorem cutBlocks_nil (n fuel : Nat) : cutBlocks n fuel [] = [] := by cases fuel <;> rfl

theorem cutBlocks_succ {file : List Byte} (hf : file ≠ []) (n fuel : Nat) :
    cutBlocks n (fuel + 1) file = padBlock n (file.take n) :: cutBlocks n fuel (file.drop n) := by
  cases file with
  | nil => exact absurd rfl hf
  | cons => rfl

/-- The bound on the number of blocks does not matter once it is the number of bytes: each block takes one at least. -/
theorem cutBlocks_congr (hn : 1 ≤ n) {fuel fuel' : Nat} {file : List Byte} (h : file.length ≤ fuel)
    (h' : file.length ≤ fuel') : cutBlocks n fuel file = cutBlocks n fuel' file := by
  induction fuel generalizing fuel' file with
  | zero => rw [List.eq_nil_of_length_eq_zero (Nat.le_zero.mp h), cutBlocks_nil, cutBlocks_nil]
  | succ fuel ih =>
    cases file with
    | nil => rw [cutBlocks_nil, cutBlocks_nil]
    | cons b bs =>
      obtain ⟨fuel', rfl⟩ := Nat.exists_eq_add_one.mpr (Nat.lt_of_lt_of_le (Nat.succ_pos bs.length) h')
      have hdrop : ((b :: bs).drop n).length ≤ bs.length := by
        rw [List.length_drop, List.length_cons]
        omega
      rw [cutBlocks_succ (List.cons_ne_nil b bs), cutBlocks_succ (List.cons_ne_nil b bs),
        ih (hdrop.trans (Nat.le_of_succ_le_succ h)) (hdrop.trans (Nat.le_of_succ_le_succ h'))]

@[simp] theorem blocksOf_nil (n : Nat) : blocksOf n [] = [] := rfl

/-- The first block of a file is its first `n` bytes, padded; the others are the blocks of the rest. -/
theorem blocksOf_of_ne_nil (hn : 1 ≤ n) {file : List Byte} (hf : file ≠ []) :
    blocksOf n file = padBlock n (file.take n) :: blocksOf n (file.drop n) := by
  rw [blocksOf, cutBlocks_congr hn le_rfl (Nat.le_succ file.length), cutBlocks_succ hf,
    cutBlocks_congr hn (by simp) le_rfl, ← blocksOf]

theorem blocksOf_ne_nil (hn : 1 ≤ n) {file : List Byte} (hf : file ≠ []) : blocksOf n file ≠ [] := by
  rw [blocksOf_of_ne_nil hn hf]
  exact List.cons_ne_nil _ _

/-- Induction on a file the way it is cut into blocks. -/
theorem blocks_induction (hn : 1 ≤ n) {motive : List Byte → Prop} (file : List Byte) (nil : motive [])
    (cons : ∀ file, file ≠ [] → motive (file.drop n) → motive file) : motive file := by
  induction hk : file.length using Nat.strong_induction_on generalizing file with
  | _ k ih =>
    by_cases hf : file = []
    · rwa [hf]
    have hpos : 0 < file.length := List.length_pos_iff.mpr hf
    have hdrop : (file.drop n).length < k := by rw [List.length_drop]; omega
    exact cons file hf (ih _ hdrop _ rfl)

theorem padBlock_length {bytes : List Byte} (h : bytes.length ≤ n) : (padBlock n bytes).length = n := by
  rw [padBlock, List.length_append, List.length_replicate, Nat.add_sub_cancel' h]

/-- A full block gets no padding. -/
theorem padBlock_of_length {bytes : List Byte} (h : bytes.length = n) : padBlock n bytes = bytes := by
  rw [padBlock, h, Nat.sub_self, List.replicate_zero, List.append_nil]

theorem length_of_mem_blocksOf (hn : 1 ≤ n) {file block : List Byte} (h : block ∈ blocksOf n file) :
    block.length = n := by
  induction file using blocks_induction hn with
  | nil => cases h
  | cons file hf ih =>
    rw [blocksOf_of_ne_nil hn hf, List.mem_cons] at h
    obtain rfl | h := h
    · exact padBlock_length (List.length_take_le n file)
    · exact ih h

/-- A file has as many blocks as `n` goes into its length, rounded up. -/
theorem blocksOf_length (hn : 1 ≤ n) (file : List Byte) : (blocksOf n file).length = (file.length + n - 1) / n := by
  induction file using blocks_induction hn with
  | nil => exact (Nat.div_eq_of_lt (by simp; omega)).symm
  | cons file hf ih =>
    have hpos : 0 < file.length := List.length_pos_iff.mpr hf
    rw [blocksOf_of_ne_nil hn hf, List.length_cons, ih, List.length_drop,
      Nat.div_eq_sub_div hn (by omega : n ≤ file.length + n - 1)]
    by_cases hlt : file.length < n
    · rw [Nat.div_eq_of_lt (by omega), Nat.div_eq_of_lt (by omega)]
    · rw [show file.length - n + n - 1 = file.length + n - 1 - n by omega]

theorem blocksOf_flatten (hn : 1 ≤ n) (file : List Byte) :
    ∃ z, z < n ∧ (blocksOf n file).flatten = file ++ List.replicate z 0 := by
  induction file using blocks_induction hn with
  | nil => exact ⟨0, hn, rfl⟩
  | cons file hf ih =>
    rw [blocksOf_of_ne_nil hn hf, List.flatten_cons]
    by_cases hlt : file.length < n
    case pos =>
      have hpos : 0 < file.length := List.length_pos_iff.mpr hf
      rw [List.drop_eq_nil_of_le hlt.le, blocksOf_nil, List.flatten_nil, List.append_nil, List.take_of_length_le hlt.le]
      exact ⟨n - file.length, by omega, rfl⟩
    case neg =>
      obtain ⟨z, hz, hrest⟩ := ih
      rw [hrest, padBlock_of_length (by rw [List.length_take]; omega), ← List.append_assoc, List.take_append_drop]
      exact ⟨z, hz, rfl⟩

/-- A zero byte added inside the last block stands where the padding was. -/
theorem blocksOf_append_zero (hn : 1 ≤ n) {file : List Byte} (h : file.length % n ≠ 0) :
    blocksOf n (file ++ [0]) = blocksOf n file := by
  induction file using blocks_induction hn with
  | nil => simp at h
  | cons file hf ih =>
    rw [blocksOf_of_ne_nil hn hf, blocksOf_of_ne_nil hn (by simp)]
    by_cases hlt : file.length < n
    case pos =>
      have hle : (file ++ [0]).length ≤ n := by rw [List.length_append]; exact hlt
      have hpad : n - file.length = (n - (file ++ [0]).length) + 1 := by simp; omega
      rw [List.take_of_length_le hle, List.take_of_length_le hlt.le, List.drop_eq_nil_of_le hle,
        List.drop_eq_nil_of_le hlt.le, padBlock, padBlock, hpad, List.replicate_succ, List.append_assoc]
      rfl
    case neg =>
      have hle : n ≤ file.length := Nat.le_of_not_lt hlt
      rw [List.take_append_of_le_length hle, List.drop_append_of_le_length hle, ih]
      rwa [List.length_drop, ← Nat.mod_eq_sub_mod hle]

end

/-- Settles O53: each block takes `n` bytes of the file, and only the last one can be short of them. -/
theorem blocksAreThePaddedFile : Obligations.BlocksAreThePaddedFile := by
  refine fun n file hn => ⟨fun b hb => length_of_mem_blocksOf hn hb, blocksOf_flatten hn file, fun hmod => ?_⟩
  obtain ⟨q, hq⟩ := Nat.dvd_of_mod_eq_zero hmod
  rw [blocksOf_length hn, hq, Nat.mul_div_cancel_left q hn, Nat.add_sub_assoc hn, Nat.mul_add_div hn,
    Nat.div_eq_of_lt (by omega), Nat.add_zero]

end Sys2Proof.Machine
end

section
/-! The salt schedule (70_reset_and_hazards.md R216, R217): files with the same blocks are told apart by the salts of
their lengths and by nothing else. -/

namespace Sys2Proof.Machine

/-! ## Files with the same blocks -/

theorem chainHash_congr {c : Configuration} {sched : SaltSchedule} {policy : EmptyInputPolicy} {file file' : List Byte}
    (hf : file ≠ []) (hf' : file' ≠ [])
    (h : chainOffers sched c.blockSize file = chainOffers sched c.blockSize file') :
    chainHash c sched policy file = chainHash c sched policy file' := by
  simp only [chainHash, if_neg hf, if_neg hf', h]

theorem chainOffers_congr {sched : SaltSchedule} {n : Nat} {file file' : List Byte}
    (hblocks : blocksOf n file = blocksOf n file') (hsalts : sched.saltsAt file.length = sched.saltsAt file'.length) :
    chainOffers sched n file = chainOffers sched n file' := by
  simp only [SaltSchedule.saltsAt, SaltSchedule.reading, Reading.salts, List.cons.injEq, and_true] at hsalts
  obtain ⟨hpre, hpost, h1, h2, h3⟩ := hsalts
  simp only [chainOffers, chainBody, SaltSchedule.reading, hblocks, hpre, hpost, h1, h2, h3]

theorem foldOffers_congr {sched : FoldSchedule} {len len' : Nat} (hpre : sched.pre len = sched.pre len')
    (hpost : sched.post len = sched.post len') (hreading : sched.reading len = sched.reading len') :
    foldOffers sched len = foldOffers sched len' := by
  funext block
  simp only [foldOffers, foldBody, hpre, hpost, hreading]

/-- The length of the file enters the XOR-fold through the commands of a block only. -/
theorem foldDigest_congr {sched : FoldSchedule} {len len' : Nat} (h : foldOffers sched len = foldOffers sched len')
    (blocks : List (List Byte)) (s : State) : foldDigest sched len blocks s = foldDigest sched len' blocks s := by
  induction blocks generalizing s with
  | nil => rfl
  | cons b bs ih => simp only [foldDigest, h, ih]

/-! ## The salts that stand in the commands -/

/-- The parameters of a salt that a command carries (41_salt.md R122). -/
def saltParameters : Instr → Option (BitVec 24 × Word × Word)
  | .salt rounds noise0 noise1 => some (rounds, noise0, noise1)
  | .reset | .step _ _ | .saltk _ | .absorb | .extract32 | .extract64 _ | .extract128 _ _ _ => none

/-- The parameters of the SALT commands among the offers, in order. -/
def sentParameters (os : List Offer) : List (BitVec 24 × Word × Word) := os.filterMap fun o => saltParameters o.instr

@[simp] theorem sentParameters_nil : sentParameters [] = [] := rfl

@[simp] theorem sentParameters_append (os os' : List Offer) :
    sentParameters (os ++ os') = sentParameters os ++ sentParameters os' := List.filterMap_append

@[simp] theorem sentParameters_reset_cons (os : List Offer) :
    sentParameters (Offer.plain .reset :: os) = sentParameters os := rfl

@[simp] theorem sentParameters_absorb_cons (block : List Byte) (os : List Offer) :
    sentParameters (Offer.absorb block :: os) = sentParameters os := rfl

@[simp] theorem sentParameters_extract32_cons (os : List Offer) :
    sentParameters (Offer.plain .extract32 :: os) = sentParameters os := rfl

theorem saltParameters_instr (u : SaltUse) : saltParameters u.instr = u.parameters := by cases u <;> rfl

@[simp] theorem sentParameters_saltOffers (l : List SaltUse) :
    sentParameters (saltOffers l) = l.filterMap SaltUse.parameters := by
  rw [sentParameters, saltOffers, List.filterMap_map]
  exact List.filterMap_congr fun u _ => saltParameters_instr u

@[simp] theorem sentParameters_absorbs (blocks : List (List Byte)) : sentParameters (blocks.map Offer.absorb) = [] := by
  rw [sentParameters, List.filterMap_map]
  exact List.filterMap_eq_nil_iff.mpr fun _ _ => rfl

@[simp] theorem freeSalts_nil : freeSalts [] = [] := rfl

@[simp] theorem freeSalts_cons (l : List SaltUse) (ls : List (List SaltUse)) :
    freeSalts (l :: ls) = l.filterMap SaltUse.parameters ++ freeSalts ls := by
  rw [freeSalts, List.flatten_cons, List.filterMap_append, freeSalts]

/-- EXTRACT128 carries named salts only, and a reading word by word sends the salts between its words. -/
@[simp] theorem sentParameters_reading (r : Reading) : sentParameters r.offers = freeSalts r.salts := by
  cases r with
  | composite k1 k2 k3 => rfl
  | words l1 l2 l3 => simp [Reading.offers, Reading.salts]

/-- Sequential chaining sends the free salts of the file's length, all of them and no others. -/
theorem sentParameters_chainOffers (sched : SaltSchedule) (n : Nat) (file : List Byte) :
    sentParameters (chainOffers sched n file) = freeSalts (sched.saltsAt file.length) := by
  simp [chainOffers, chainBody, SaltSchedule.saltsAt]

/-- The XOR-fold sends for every block the free salts of the file's length, all of them and no others. -/
theorem sentParameters_foldOffers (sched : FoldSchedule) (len : Nat) (block : List Byte) :
    sentParameters (foldOffers sched len block) = freeSalts (sched.saltsAt len) := by
  simp [foldOffers, foldBody, FoldSchedule.saltsAt]

/-- Files of different lengths in the same blocks fill one number of blocks, so a schedule that tells padding apart has
other free salts for them. -/
theorem TellsPaddingApart.freeSalts_ne {saltsAt : Nat → List (List SaltUse)} {n : Nat} (h : TellsPaddingApart saltsAt n)
    (hn : 1 ≤ n) {file file' : List Byte} (hf : file ≠ []) (hf' : file' ≠ []) (hlen : file.length ≠ file'.length)
    (hblocks : blocksOf n file = blocksOf n file') :
    freeSalts (saltsAt file.length) ≠ freeSalts (saltsAt file'.length) := by
  have hcount := congrArg List.length hblocks
  rw [blocksOf_length hn, blocksOf_length hn] at hcount
  exact h _ _ (List.length_pos_iff.mpr hf) (List.length_pos_iff.mpr hf') hlen hcount

/-- Settles O54: blocks and salts make the commands, and the parameters of the SALT commands are the free salts of the
schedule. -/
theorem onlyTheScheduleTellsPaddingFromData : Obligations.OnlyTheScheduleTellsPaddingFromData := by
  refine ⟨fun n file hn h => blocksOf_append_zero hn h, ?sameChain, ?sameFold, ?otherChain, ?otherFold⟩
  case sameChain =>
    intro c sched policy file file' hf hf' hblocks hsalts
    exact chainHash_congr hf hf' (chainOffers_congr hblocks hsalts)
  case sameFold =>
    intro c sched policy file file' hf hf' hblocks hpre hpost hreading
    simp only [foldHash, if_neg hf, if_neg hf', hblocks, foldDigest_congr (foldOffers_congr hpre hpost hreading)]
  case otherChain =>
    intro sched n file file' hn hf hf' hlen hblocks happart heq
    apply happart.freeSalts_ne hn hf hf' hlen hblocks
    rw [← sentParameters_chainOffers sched n, ← sentParameters_chainOffers sched n, heq]
  case otherFold =>
    intro sched n file file' block hn hf hf' hlen hblocks happart heq
    apply happart.freeSalts_ne hn hf hf' hlen hblocks
    rw [← sentParameters_foldOffers sched _ block, ← sentParameters_foldOffers sched _ block, heq]

end Sys2Proof.Machine
end

section
/-! The protocol of one computation (70_reset_and_hazards.md R203, R212 to R215, R219, R220, R233): the commands of both
strategies lead from its start to Done, and Done is terminal. -/

namespace Sys2Proof.Machine

/-! ## Sequences of commands -/

theorem afterAll_append (next : Phase → Instr → Option Phase) (is js : List Instr) (p : Phase) :
    Phase.afterAll next (is ++ js) p = (Phase.afterAll next is p).bind (Phase.afterAll next js) := by
  induction is generalizing p with
  | nil => rfl
  | cons i is ih =>
    simp only [List.cons_append, Phase.afterAll]
    cases next p i with
    | none => rfl
    | some p' => exact ih p'

theorem afterAll_cons_eq_some_iff {next : Phase → Instr → Option Phase} {i : Instr} {is : List Instr} {p q : Phase} :
    Phase.afterAll next (i :: is) p = some q ↔ ∃ p', next p i = some p' ∧ Phase.afterAll next is p' = some q := by
  rw [Phase.afterAll]
  cases next p i <;> simp

/-- The protocol of one digest allows the commands, and they take the computation from phase `p` to phase `q`. -/
def Leads (st : Strategy) (t : SaltTable) (is : List Instr) (p q : Phase) : Prop :=
  p.afterAll (Phase.afterInComputation st t) is = some q

section
variable {st : Strategy} {t : SaltTable} {p q r : Phase}

theorem Leads.nil : Leads st t [] p p := rfl

theorem Leads.cons {i : Instr} {is : List Instr} (h : p.afterInComputation st t i = some q) (h' : Leads st t is q r) :
    Leads st t (i :: is) p r := afterAll_cons_eq_some_iff.mpr ⟨q, h, h'⟩

theorem Leads.append {is js : List Instr} (h : Leads st t is p q) (h' : Leads st t js q r) :
    Leads st t (is ++ js) p r := by
  rw [Leads, afterAll_append, h, Option.bind_some, h']

/-- RESET starts the computation on any instance (R203). -/
theorem leads_reset {is : List Instr} (h : Leads st t is .reset q) : Leads st t (.reset :: is) .idle q := h.cons rfl

/-! ## Salts (R213 to R215) -/

/-- A salt the CORE executes takes the transition of its round count. -/
theorem afterInComputation_salt (hp : p ≠ Phase.done) {u : SaltUse} {rounds : Nat} (hu : u.rounds t = some rounds) :
    p.afterInComputation st t u.instr = p.onSalt rounds := by
  cases u with
  | immediate r n0 n1 =>
    simp only [SaltUse.rounds, Option.ite_none_left_eq_some, Option.some.injEq] at hu
    obtain ⟨hr, rfl⟩ := hu
    simp only [Phase.afterInComputation, SaltUse.instr, Phase.after, if_neg hp, if_neg hr]
  | named k =>
    simp only [SaltUse.rounds] at hu
    split at hu
    · rename_i salt hk
      obtain rfl := Option.some.inj hu
      simp only [Phase.afterInComputation, SaltUse.instr, Phase.after, if_neg hp, hk]
    · cases hu

theorem Leads.salt (hp : p ≠ Phase.done) {u : SaltUse} {rounds : Nat} (hu : u.rounds t = some rounds)
    (hq : p.onSalt rounds = some q) {l : List SaltUse} (h : Leads st t (l.map SaltUse.instr) q r) :
    Leads st t ((u :: l).map SaltUse.instr) p r :=
  Leads.cons ((afterInComputation_salt hp hu).trans hq) h

theorem SaltsExecute.of_cons {u : SaltUse} {l : List SaltUse} (h : SaltsExecute t (u :: l)) :
    (∃ rounds, u.rounds t = some rounds) ∧ SaltsExecute t l := by
  obtain ⟨hu, hl⟩ := List.forall_mem_cons.mp h
  exact ⟨Option.ne_none_iff_exists'.mp hu, hl⟩

/-- Salts stay in a phase that no salt leaves. -/
theorem leads_salts_stay (hp : p ≠ Phase.done) (hstay : ∀ rounds, p.onSalt rounds = some p) {l : List SaltUse}
    (hl : SaltsExecute t l) : Leads st t (l.map SaltUse.instr) p p := by
  induction l with
  | nil => exact .nil
  | cons u l ih =>
    obtain ⟨⟨rounds, hu⟩, hl⟩ := SaltsExecute.of_cons hl
    exact .salt hp hu (hstay rounds) (ih hl)

/-- Salts, one at least, lead to the phase that any salt leads to and none leaves. -/
theorem leads_salts (hp : p ≠ Phase.done) (hq : q ≠ Phase.done) (hgo : ∀ rounds, p.onSalt rounds = some q)
    (hstay : ∀ rounds, q.onSalt rounds = some q) {l : List SaltUse} (hne : l ≠ []) (hl : SaltsExecute t l) :
    Leads st t (l.map SaltUse.instr) p q := by
  cases l with
  | nil => exact absurd rfl hne
  | cons u l =>
    obtain ⟨⟨rounds, hu⟩, hl⟩ := SaltsExecute.of_cons hl
    exact .salt hp hu (hgo rounds) (leads_salts_stay hq hstay hl)

/-- Salts after the `n`th word, one of them long-distance, allow the next one (R215). -/
theorem leads_salts_between {n : Nat} (hn : n ≠ 4) {l : List SaltUse} (hl : SaltsExecute t l)
    (hlong : HasLongSalt t l) (hp : p = .extracting n ∨ p = .shortSalted n) :
    Leads st t (l.map SaltUse.instr) p (.decorrelated n) := by
  have hdone : p ≠ Phase.done := by obtain rfl | rfl := hp <;> simp [Phase.done, hn]
  induction l generalizing p with
  | nil =>
    obtain ⟨u, hu, -⟩ := hlong
    cases hu
  | cons u l ih =>
    obtain ⟨⟨rounds, hu⟩, hl⟩ := SaltsExecute.of_cons hl
    have hsalt : p.onSalt rounds = if longMin ≤ rounds then some (.decorrelated n) else some (.shortSalted n) := by
      obtain rfl | rfl := hp <;> rfl
    by_cases hrounds : longMin ≤ rounds
    · rw [if_pos hrounds] at hsalt
      exact .salt hdone hu hsalt (leads_salts_stay (by simp [Phase.done]) (fun _ => rfl) hl)
    · rw [if_neg hrounds] at hsalt
      have htail : HasLongSalt t l := by
        obtain ⟨v, hv, rounds', hv', hlong'⟩ := hlong
        obtain rfl | hv := List.mem_cons.mp hv
        · rw [hu, Option.some.injEq] at hv'
          exact absurd (hv' ▸ hlong') hrounds
        · exact ⟨v, hv, rounds', hv', hlong'⟩
      exact .salt hdone hu hsalt (ih hl htail (.inr rfl) (by simp [Phase.done]))

/-! ## Blocks and readings -/

/-- Sequential chaining absorbs every block of the file (R219). -/
theorem leads_absorbs {blocks : List (List Byte)} (h : blocks ≠ []) :
    Leads .chain t (blocks.map fun _ => .absorb) .salted .absorbing := by
  have hmore (bs : List (List Byte)) : Leads .chain t (bs.map fun _ => .absorb) .absorbing .absorbing := by
    induction bs with
    | nil => exact .nil
    | cons b bs ih => exact .cons rfl ih
  cases blocks with
  | nil => exact absurd rfl h
  | cons b bs => exact .cons rfl (hmore bs)

theorem map_instr_saltOffers (l : List SaltUse) : (saltOffers l).map (fun o => o.instr) = l.map SaltUse.instr :=
  List.map_map ..

theorem map_instr_absorbs (blocks : List (List Byte)) :
    (blocks.map Offer.absorb).map (fun o => o.instr) = blocks.map fun _ => .absorb :=
  List.map_map ..

/-- The next word is read after salts, one of them long-distance (R215). -/
theorem leads_word {n : Nat} (hn : n ≠ 4) {l : List SaltUse} (hl : SaltsExecute t l) (hlong : HasLongSalt t l) :
    Leads st t (l.map SaltUse.instr ++ [.extract32]) (.extracting n) (.extracting (n + 1)) :=
  (leads_salts_between hn hl hlong (.inl rfl)).append (.cons (if_neg (by simp [Phase.done])) .nil)

/-- A dutiful reading reads four words and is done (R212, R219, R220). -/
theorem leads_reading {r : Reading} (h : r.Dutiful t) :
    Leads st t (r.offers.map fun o => o.instr) .finalSalted Phase.done := by
  cases r with
  | composite k1 k2 k3 =>
    obtain ⟨salts, hsalts⟩ := h
    have hextract : Phase.finalSalted.after st t (.extract128 k1 k2 k3) = some Phase.done := by
      simp only [Phase.after, hsalts]
      rfl
    exact .cons hextract .nil
  | words l1 l2 l3 =>
    obtain ⟨⟨h1, h2, h3⟩, hlong1, hlong2, hlong3⟩ := h
    have hfirst : Leads st t [.extract32] .finalSalted (.extracting 1) := .cons rfl .nil
    have hfour := ((hfirst.append (leads_word (by decide) h1 hlong1)).append
      (leads_word (by decide) h2 hlong2)).append (leads_word (by decide) h3 hlong3)
    simpa [Reading.offers, map_instr_saltOffers, Offer.plain, Phase.done] using hfour

/-- The post-salt and a dutiful reading end a computation after its last block (R214). -/
theorem leads_ending {l : List SaltUse} (hne : l ≠ []) (hl : SaltsExecute t l) {r : Reading} (hr : r.Dutiful t) :
    Leads st t (l.map SaltUse.instr ++ r.offers.map fun o => o.instr) .absorbing Phase.done :=
  (leads_salts (by decide) (by decide) (fun _ => rfl) (fun _ => rfl) hne hl).append (leads_reading hr)

/-! ## Both strategies -/

theorem leads_chainBody {sched : SaltSchedule} {n : Nat} {file : List Byte} (hn : 1 ≤ n) (hf : file ≠ [])
    (h : sched.Dutiful t file.length) :
    Leads .chain t ((chainBody sched n file).map fun o => o.instr) .reset Phase.done := by
  obtain ⟨hpre, hpost, hpreExec, hpostExec, hreading⟩ := h
  have hsalted : Leads .chain t ((sched.pre file.length).map SaltUse.instr) .reset .salted :=
    leads_salts (by decide) (by decide) (fun _ => rfl) (fun _ => rfl) hpre hpreExec
  have hall := (hsalted.append (leads_absorbs (blocksOf_ne_nil hn hf))).append (leads_ending hpost hpostExec hreading)
  simpa only [chainBody, List.map_append, map_instr_saltOffers, map_instr_absorbs, List.append_assoc] using hall

/-- The XOR-fold absorbs its block with salts before it or without (R213, R220). -/
theorem leads_salts_absorb {l : List SaltUse} (hl : SaltsExecute t l) :
    Leads .xorFold t (l.map SaltUse.instr ++ [.absorb]) .reset .absorbing := by
  by_cases hne : l = []
  · subst hne
    exact .cons rfl .nil
  · exact (leads_salts (q := .salted) (by decide) (by decide) (fun _ => rfl) (fun _ => rfl) hne hl).append
      (.cons rfl .nil)

theorem leads_foldBody {sched : FoldSchedule} {len : Nat} {block : List Byte} (h : sched.Dutiful t len) :
    Leads .xorFold t ((foldBody sched len block).map fun o => o.instr) .reset Phase.done := by
  obtain ⟨hpost, hpreExec, hpostExec, hreading⟩ := h
  have hall := (leads_salts_absorb hpreExec).append (leads_ending hpost hpostExec hreading)
  simpa [foldBody, map_instr_saltOffers, Offer.absorb] using hall

/-- Sequential chaining of a non-empty file is a computation on any instance (R219). -/
theorem validComputation_chainOffers {sched : SaltSchedule} {n : Nat} {file : List Byte} (hn : 1 ≤ n) (hf : file ≠ [])
    (h : sched.Dutiful t file.length) :
    ValidComputation .chain t false ((chainOffers sched n file).map fun o => o.instr) :=
  leads_reset (leads_chainBody hn hf h)

/-- The XOR-fold of a block is a computation on any instance (R220). -/
theorem validComputation_foldOffers {sched : FoldSchedule} {len : Nat} {block : List Byte} (h : sched.Dutiful t len) :
    ValidComputation .xorFold t false ((foldOffers sched len block).map fun o => o.instr) :=
  leads_reset (leads_foldBody h)

/-! ## The end of a computation (R212, R233) -/

theorem onSalt_ne_done {rounds : Nat} (h : p.onSalt rounds = some q) : q ≠ Phase.done := by
  cases p with
  | extracting n | shortSalted n =>
    simp only [Phase.onSalt] at h
    split at h <;> cases h <;> simp [Phase.done]
  | _ => cases h <;> simp [Phase.done]

theorem onAbsorb_ne_done (h : p.onAbsorb st = some q) : q ≠ Phase.done := by
  rintro rfl
  cases p <;> simp [Phase.onAbsorb, Phase.done] at h

/-- Only the two extractions of R212 lead to Done. -/
theorem mnemonic_of_afterInComputation_done {i : Instr} (h : p.afterInComputation st t i = some Phase.done) :
    i.mnemonic = .extract32 ∨ i.mnemonic = .extract128 := by
  simp only [Phase.afterInComputation] at h
  split at h
  · cases h
  cases i with
  | extract32 => exact .inl rfl
  | extract128 => exact .inr rfl
  | reset | step | extract64 => cases h
  | absorb => exact absurd rfl (onAbsorb_ne_done h)
  | salt rounds noise0 noise1 =>
    simp only [Phase.after] at h
    split at h
    · cases h
    · exact absurd rfl (onSalt_ne_done h)
  | saltk k =>
    simp only [Phase.after] at h
    split at h
    · exact absurd rfl (onSalt_ne_done h)
    · cases h

theorem start_ne_done (fresh : Bool) : Phase.start fresh ≠ Phase.done := by cases fresh <;> decide

/-- A sequence that comes to be done has a last command, an extraction of R212. -/
theorem Leads.exists_last {is : List Instr} (h : Leads st t is p Phase.done) (hp : p ≠ Phase.done) :
    ∃ before last, is = before ++ [last] ∧ (last.mnemonic = .extract32 ∨ last.mnemonic = .extract128) := by
  obtain rfl | ⟨before, last, rfl⟩ := List.eq_nil_or_concat' is
  · exact absurd (Option.some.inj h) hp
  · refine ⟨before, last, rfl, ?_⟩
    rw [Leads, afterAll_append, Option.bind_eq_some_iff] at h
    obtain ⟨q, -, hlast⟩ := h
    obtain ⟨r, hr, hend⟩ := afterAll_cons_eq_some_iff.mp hlast
    exact mnemonic_of_afterInComputation_done (hr.trans hend)

/-- No command is allowed once the computation is done. -/
theorem Leads.not_extended {is : List Instr} (h : Leads st t is p Phase.done) (i : Instr) (more : List Instr) :
    ¬ Leads st t (is ++ i :: more) p q := by
  rw [Leads, afterAll_append, h, Option.bind_some, afterAll_cons_eq_some_iff]
  rintro ⟨p', hp', -⟩
  cases hp'

end

/-- Settles O55: from the phase RESET leads to, the body of either strategy goes through the phases in order, and Done
is reached by an extraction and allows no command. -/
theorem strategiesFollowTheProtocol : Obligations.StrategiesFollowTheProtocol := by
  refine ⟨fun t sched n file hn hf h => ?chain, fun t sched len block h => ?fold,
    fun st t fresh is h => ⟨Leads.exists_last h (start_ne_done fresh), Leads.not_extended h⟩⟩
  case chain => exact ⟨validComputation_chainOffers hn hf h, leads_chainBody hn hf h⟩
  case fold => exact ⟨validComputation_foldOffers h, leads_foldBody h⟩

end Sys2Proof.Machine
end

section
/-! Runs of commands (70_reset_and_hazards.md R200 to R203, R220, R227, R228, R232): the CORE waits for its command, a
host that keeps to the protocol is never refused, and what a run answers depends on the lanes it starts from alone. -/

namespace Sys2Proof.Machine

/-! ## Waiting for a command (R202, R228) -/

theorem takeCommand_of_no_word {s : State} (h : s.cmdChan = []) : s.takeCommand = none := by
  simp only [State.takeCommand, h]

theorem takeCommand_of_no_payload {s : State} {w : CmdWord} {ws : List CmdWord} (h : s.cmdChan = w :: ws)
    (hw : bringsBlock w = true) (hb : s.blockChan = []) : s.takeCommand = none := by
  simp only [State.takeCommand, h, hw, hb, if_true]

/-- Settles O43: without its word or its payload no command is taken. -/
theorem coreWaitsForItsCommand : Obligations.CoreWaitsForItsCommand := fun _ hl =>
  ⟨fun h => step_of_takeCommand_none hl (takeCommand_of_no_word h),
    fun _ _ h hw hb => step_of_takeCommand_none hl (takeCommand_of_no_payload h (bringsBlock_iff.mpr hw) hb)⟩

/-! ## The words of a phase (R212, R232) -/

/-- How many words have been read in a phase. -/
def Phase.words : Phase → Nat
  | .extracting n | .shortSalted n | .decorrelated n => n
  | .idle | .reset | .salted | .absorbing | .finalSalted => 0

theorem onSalt_words {rounds : Nat} {p q : Phase} (h : p.onSalt rounds = some q) : q.words = p.words := by
  cases p with
  | extracting n | shortSalted n =>
    simp only [Phase.onSalt] at h
    split at h <;> cases h <;> rfl
  | _ => cases h <;> rfl

theorem onAbsorb_words {st : Strategy} {p q : Phase} (h : p.onAbsorb st = some q) : q.words = p.words := by
  cases p with
  | reset | absorbing =>
    simp only [Phase.onAbsorb] at h
    split at h <;> cases h
    rfl
  | _ => cases h <;> rfl

theorem onExtract_words {m : Nat} {p q : Phase} (h : p.onExtract m = some q) : q.words = p.words + m := by
  cases p with
  | finalSalted =>
    cases h
    exact (Nat.zero_add m).symm
  | decorrelated n =>
    cases h
    rfl
  | _ => cases h

/-- The phase after a command counts the words in its response; RESET starts again. -/
def CountsWords (i : Instr) (p q : Phase) : Prop :=
  ∀ data, q.words = if i = .reset then 0 else p.words + (wordsIn i data).length

/-- The CORE executes a command the protocol allows, and the protocol counts the words it answers with (R212, R227). -/
theorem after_next {st : Strategy} {c : Configuration} {i : Instr} {p q : Phase}
    (h : p.after st c.saltTable i = some q) : commandStatus c c.blockSize i = .ok ∧ CountsWords i p q := by
  cases i with
  | reset =>
    cases h
    exact ⟨rfl, fun _ => rfl⟩
  | step => cases h
  | salt rounds noise0 noise1 =>
    simp only [Phase.after] at h
    split at h
    · cases h
    · rename_i hr
      exact ⟨(statusOfCheck_checkedRounds ..).trans (if_neg hr), fun _ => onSalt_words h⟩
  | saltk k =>
    simp only [Phase.after] at h
    split at h
    · rename_i salt hk
      exact ⟨(statusOfCheck_checkedIndex ..).trans (if_neg (by simp [hk])), fun _ => onSalt_words h⟩
    · cases h
  | absorb => exact ⟨if_pos rfl, fun _ => onAbsorb_words h⟩
  | extract32 => exact ⟨rfl, fun _ => onExtract_words h⟩
  | extract64 k =>
    simp only [Phase.after] at h
    split at h
    · rename_i salt hk
      exact ⟨congrArg statusOfCheck hk, fun _ => onExtract_words h⟩
    · cases h
  | extract128 k1 k2 k3 =>
    simp only [Phase.after] at h
    split at h
    · rename_i salts hk
      exact ⟨congrArg statusOfCheck hk, fun _ => onExtract_words h⟩
    · cases h

/-- The words after a command that was executed. -/
theorem readOne_ok {ws : List (BitVec 32)} {o : Offer} {data : BitVec 128} {p q : Phase}
    (hcount : CountsWords o.instr p q) (hws : ws.length = p.words) :
    ∃ ws', readOne (some ws) o { status := .ok, data := data } = some ws' ∧ ws'.length = q.words := by
  simp only [readOne, hcount data]
  by_cases hi : o.instr = .reset
  · exact ⟨[], by simp [hi]⟩
  · exact ⟨_, by simp [hi]; rfl, by simp [hi, hws]⟩

/-! ## A host that keeps to the protocol -/

theorem serve_cons {o : Offer} {s t : State} (h : exec o.instr (s.openWindow o.payload) = .next t) (os : List Offer) :
    serve (o :: os) s = serve os t := by
  simp only [serve, h]

/-- An offered command that passes its checks, with a block of the right size if it is an ABSORB, is executed. -/
theorem exec_offer_ok {o : Offer} {s : State} (hl : s.config.Legal) (ho : o.Fits)
    (hlen : ∀ b ∈ o.payload, b.length = s.config.blockSize)
    (hok : commandStatus s.config s.config.blockSize o.instr = .ok) :
    ∃ t data, exec o.instr (s.openWindow o.payload) = .next t ∧ t.config = s.config ∧
      t.respChan = s.respChan ++ [{ status := .ok, data := data }] := by
  have hwindow (hi : o.instr = .absorb) : ∃ b : List Byte,
      (s.openWindow o.payload).window = Memory.ofPayload b ∧ b.length = s.config.blockSize := by
    obtain ⟨b, hb⟩ := Option.isSome_iff_exists.mp (ho.trans (decide_eq_true hi))
    exact ⟨b, by rw [hb, openWindow_some_window], hlen b hb⟩
  obtain ⟨t, data, hexec, hresp, -, -⟩ :=
    answers_exec (s := s.openWindow o.payload) (by rw [openWindow_config]; exact hl.left) hwindow
  rw [openWindow_config, hok, openWindow_respChan] at hresp
  exact ⟨t, data, hexec, (exec_keeps hexec).left.trans (openWindow_config ..), hresp⟩

/-- From any phase, the commands the protocol allows are executed, and they read the words it counts (R232). -/
theorem serve_of_afterAll {st : Strategy} {os : List Offer} {s : State} {p q : Phase} {ws : List (BitVec 32)}
    (hl : s.config.Legal) (hfit : ∀ o ∈ os, o.Fits) (hlen : ∀ o ∈ os, ∀ b ∈ o.payload, b.length = s.config.blockSize)
    (h : p.afterAll (Phase.after st s.config.saltTable) (os.map fun o => o.instr) = some q)
    (hws : ws.length = p.words) :
    ∃ t rs ws', serve os s = .next t ∧ t.respChan = s.respChan ++ rs ∧ readWords (some ws) os rs = some ws' ∧
      ws'.length = q.words := by
  induction os generalizing s p ws with
  | nil =>
    obtain rfl := Option.some.inj h
    exact ⟨s, [], ws, rfl, (List.append_nil _).symm, rfl, hws⟩
  | cons o os ih =>
    obtain ⟨ho, hfit⟩ := List.forall_mem_cons.mp hfit
    obtain ⟨hblock, hlen⟩ := List.forall_mem_cons.mp hlen
    obtain ⟨p', hnext, hrest⟩ := afterAll_cons_eq_some_iff.mp h
    obtain ⟨hok, hcount⟩ := after_next hnext
    obtain ⟨u, data, hexec, hconfig, hresp⟩ := exec_offer_ok hl ho hblock hok
    obtain ⟨ws', hread, hws'⟩ := readOne_ok (data := data) hcount hws
    rw [← hconfig] at hl hlen hrest
    obtain ⟨t, rs, ws'', hserve, hresps, hreads, hcounted⟩ := ih hl hfit hlen hrest hws'
    refine ⟨t, { status := .ok, data := data } :: rs, ws'', (serve_cons hexec os).trans hserve, ?_, ?_, hcounted⟩
    · rw [hresps, hresp, List.append_assoc, List.singleton_append]
    · rw [readWords, hread, hreads]

/-- Settles O56: no word has been read in the phase a computation starts in. -/
theorem protocolReadsAsManyWordsAsItAsks : Obligations.ProtocolReadsAsManyWordsAsItAsks := by
  intro st fresh words os s hl hfit hlen h
  have hstart : ([] : List (BitVec 32)).length = (Phase.start fresh).words := by cases fresh <;> rfl
  obtain ⟨t, rs, ws, hserve, hresps, hreads, hcounted⟩ := serve_of_afterAll hl hfit hlen h hstart
  refine ⟨t, ws, hserve, ?_, hcounted⟩
  rw [hresps, List.drop_left, hreads]

/-! ## Runs from the same lanes -/

/-- The state with another block window. -/
def State.onWindow (s : State) (m : Memory) : State := { s with window := m }

@[simp] theorem onWindow_config (s : State) (m : Memory) : (s.onWindow m).config = s.config := rfl

theorem saltOrRefuse_onWindow (checked : Except Status Salt) (s : State) (m : Memory) :
    ∃ t, saltOrRefuse checked s = .next t ∧ saltOrRefuse checked (s.onWindow m) = .next (t.onWindow m) := by
  cases checked <;> exact ⟨_, rfl, rfl⟩

/-- No command but ABSORB reads or writes the window (20_memory.md R50). -/
theorem exec_onWindow {i : Instr} (hi : i ≠ .absorb) (s : State) (m : Memory) :
    ∃ t, exec i s = .next t ∧ exec i (s.onWindow m) = .next (t.onWindow m) := by
  cases i with
  | reset | step | extract32 => exact ⟨_, rfl, rfl⟩
  | salt rounds noise0 noise1 => exact saltOrRefuse_onWindow (checkedRounds rounds noise0 noise1) s m
  | saltk k => exact saltOrRefuse_onWindow (checkedIndex s.config.saltTable k) s m
  | absorb => exact absurd rfl hi
  | extract64 k =>
    simp only [exec, execExtract64, onWindow_config]
    split <;> exact ⟨_, rfl, rfl⟩
  | extract128 k1 k2 k3 =>
    simp only [exec, execExtract128, onWindow_config]
    split <;> exact ⟨_, rfl, rfl⟩

/-- A command has one effect on the lanes and one response from states with the same lanes and configuration and, if it
is an ABSORB, the same window (R31, R50). -/
theorem exec_agree {i : Instr} {s s' t : State} (he : s.engine = s'.engine) (hc : s.config = s'.config)
    (hw : i = .absorb → s.window = s'.window) (h : exec i s = .next t) :
    ∃ t' r, exec i s' = .next t' ∧ t'.engine = t.engine ∧ t.respChan = s.respChan ++ [r] ∧
      t'.respChan = s'.respChan ++ [r] := by
  by_cases hi : i = .absorb
  · exact resultsDependOnLanesConfigurationAndOperands i s s' t he hc (hw hi) h
  · obtain ⟨u, hu, hu'⟩ := exec_onWindow hi s s'.window
    obtain rfl := Host.Outcome.next.inj (h.symm.trans hu)
    exact resultsDependOnLanesConfigurationAndOperands i (s.onWindow s'.window) s' (t.onWindow s'.window) he hc rfl hu'

/-- Every ABSORB of the offers finds the same window in both states: they have the same window, or each ABSORB brings
its block. -/
def SameWindows (os : List Offer) (s s' : State) : Prop := s.window = s'.window ∨ ∀ o ∈ os, o.Fits

theorem SameWindows.head {o : Offer} {os : List Offer} {s s' : State} (h : SameWindows (o :: os) s s')
    (hi : o.instr = .absorb) : (s.openWindow o.payload).window = (s'.openWindow o.payload).window := by
  cases hp : o.payload with
  | some b => rfl
  | none =>
    rcases h with hw | hfit
    · exact hw
    · have ho : o.payload.isSome = decide (o.instr = .absorb) := hfit o List.mem_cons_self
      rw [hp, hi] at ho
      cases ho

theorem SameWindows.tail {o : Offer} {os : List Offer} {s s' t t' : State} (h : SameWindows (o :: os) s s')
    (ht : exec o.instr (s.openWindow o.payload) = .next t) (ht' : exec o.instr (s'.openWindow o.payload) = .next t') :
    SameWindows os t t' := by
  refine h.imp (fun hw => ?_) fun hfit => (List.forall_mem_cons.mp hfit).right
  rw [exec_window ht, exec_window ht']
  cases o.payload with
  | none => rw [openWindow_none, openWindow_none, hw]
  | some b => rfl

theorem serve_config {os : List Offer} {s u : State} (h : serve os s = .next u) : u.config = s.config := by
  induction os generalizing s with
  | nil => rw [Host.Outcome.next.inj h]
  | cons o os ih =>
    obtain ⟨t, hexec, hserve⟩ := serve_cons_next h
    rw [ih hserve, (exec_keeps hexec).left, openWindow_config]

/-- A run has one effect on the lanes and the same responses from states with the same lanes and configuration. -/
theorem serve_agree {os : List Offer} {s s' u : State} (he : s.engine = s'.engine) (hc : s.config = s'.config)
    (hw : SameWindows os s s') (h : serve os s = .next u) :
    ∃ u' rs, serve os s' = .next u' ∧ u'.engine = u.engine ∧ u.respChan = s.respChan ++ rs ∧
      u'.respChan = s'.respChan ++ rs := by
  induction os generalizing s s' with
  | nil =>
    obtain rfl := Host.Outcome.next.inj h
    exact ⟨s', [], rfl, he.symm, (List.append_nil _).symm, (List.append_nil _).symm⟩
  | cons o os ih =>
    obtain ⟨t, hexec, hserve⟩ := serve_cons_next h
    obtain ⟨t', r, hexec', hengine, hresp, hresp'⟩ :=
      exec_agree (s' := s'.openWindow o.payload) (by simpa using he) (by simpa using hc) hw.head hexec
    have hconfig : t.config = t'.config := by
      rw [(exec_keeps hexec).left, (exec_keeps hexec').left, openWindow_config, openWindow_config, hc]
    obtain ⟨u', rs, hserve', hu, hresps, hresps'⟩ := ih hengine.symm hconfig (hw.tail hexec hexec') hserve
    rw [openWindow_respChan] at hresp hresp'
    refine ⟨u', r :: rs, (serve_cons hexec' os).trans hserve', hu, ?_, ?_⟩
    · rw [hresps, hresp, List.append_assoc, List.singleton_append]
    · rw [hresps', hresp', List.append_assoc, List.singleton_append]

/-- Settles O57: after construction RESET leaves the lanes as they are, so the run goes on as without it. -/
theorem freshInstancesNeedNoReset : Obligations.FreshInstancesNeedNoReset := by
  intro c os s0 s hs0 h
  obtain ⟨-, rfl⟩ := construct_eq_some_iff.mp hs0
  have hreset := exec_reset (State.fresh c)
  obtain ⟨t, rs, hserve, hengine, hresp, hresp'⟩ :=
    serve_agree (s := State.fresh c) (s' := ((State.fresh c).withEngine Engine.seed).respond .ok 0) rfl rfl (.inl rfl) h
  obtain rfl : s.respChan = rs := hresp
  refine ⟨t, (serve_plain_cons hreset os).trans hserve, hengine, hresp', ?_⟩
  rw [hresp']
  rfl

end Sys2Proof.Machine
end

section
/-! The digests of both strategies (70_reset_and_hazards.md R211, R219, R220, R227): a dutiful schedule ends in one, and
that of the XOR-fold is the exclusive or of digests that belong to the blocks. -/

namespace Sys2Proof.Machine

/-! ## What the strategies send -/

/-- The offer is a command without a payload, or the ABSORB of one of the blocks. -/
def Offer.Sends (blocks : List (List Byte)) (o : Offer) : Prop :=
  (∃ i, i ≠ .absorb ∧ o = Offer.plain i) ∨ ∃ b ∈ blocks, o = Offer.absorb b

section
variable {blocks : List (List Byte)}

theorem Offer.Sends.fits {o : Offer} (h : o.Sends blocks) : o.Fits := by
  obtain ⟨i, hi, rfl⟩ | ⟨b, -, rfl⟩ := h
  · exact (decide_eq_false hi).symm
  · rfl

theorem Offer.Sends.payload_length {o : Offer} {n : Nat} (h : o.Sends blocks) (hn : ∀ b ∈ blocks, b.length = n) :
    ∀ b ∈ o.payload, b.length = n := by
  obtain ⟨i, -, rfl⟩ | ⟨b, hb, rfl⟩ := h
  · exact nofun
  · rintro _ ⟨⟩
    exact hn b hb

theorem sends_plain {i : Instr} (hi : i ≠ .absorb) : (Offer.plain i).Sends blocks := .inl ⟨i, hi, rfl⟩

theorem sends_saltOffers (l : List SaltUse) : ∀ o ∈ saltOffers l, o.Sends blocks := by
  intro o ho
  obtain ⟨u, -, rfl⟩ := List.mem_map.mp ho
  exact sends_plain (by cases u <;> exact nofun)

theorem sends_reading (r : Reading) : ∀ o ∈ r.offers, o.Sends blocks := by
  have hword : ∀ o ∈ [Offer.plain .extract32], o.Sends blocks := List.forall_mem_singleton.mpr (sends_plain nofun)
  cases r with
  | composite k1 k2 k3 => exact List.forall_mem_singleton.mpr (sends_plain nofun)
  | words l1 l2 l3 =>
    simp only [Reading.offers, List.forall_mem_append]
    exact ⟨⟨⟨⟨⟨⟨hword, sends_saltOffers l1⟩, hword⟩, sends_saltOffers l2⟩, hword⟩, sends_saltOffers l3⟩, hword⟩

end

theorem sends_chainOffers (sched : SaltSchedule) (n : Nat) (file : List Byte) :
    ∀ o ∈ chainOffers sched n file, o.Sends (blocksOf n file) := by
  have habsorbs : ∀ o ∈ (blocksOf n file).map Offer.absorb, o.Sends (blocksOf n file) :=
    List.forall_mem_map.mpr fun b hb => .inr ⟨b, hb, rfl⟩
  simp only [chainOffers, chainBody, List.forall_mem_cons, List.forall_mem_append]
  exact ⟨sends_plain nofun, ⟨⟨sends_saltOffers _, habsorbs⟩, sends_saltOffers _⟩, sends_reading _⟩

theorem sends_foldBody (sched : FoldSchedule) (len : Nat) (block : List Byte) :
    ∀ o ∈ foldBody sched len block, o.Sends [block] := by
  have habsorb : ∀ o ∈ [Offer.absorb block], o.Sends [block] :=
    List.forall_mem_singleton.mpr (.inr ⟨block, List.mem_singleton_self block, rfl⟩)
  simp only [foldBody, List.forall_mem_append]
  exact ⟨⟨⟨sends_saltOffers _, habsorb⟩, sends_saltOffers _⟩, sends_reading _⟩

theorem sends_foldOffers (sched : FoldSchedule) (len : Nat) (block : List Byte) :
    ∀ o ∈ foldOffers sched len block, o.Sends [block] :=
  List.forall_mem_cons.mpr ⟨sends_plain nofun, sends_foldBody sched len block⟩

/-! ## A computation ends in a digest (R212, R227) -/

/-- The computation of one digest keeps to the protocol that reads any number of words (log 14). -/
theorem after_of_afterInComputation {st : Strategy} {t : SaltTable} {p q : Phase} {i : Instr}
    (h : p.afterInComputation st t i = some q) : p.after st t i = some q := by
  simp only [Phase.afterInComputation] at h
  split at h
  · cases h
  cases i with
  | extract64 => cases h
  | extract128 => exact (Option.ite_none_right_eq_some.mp h).right
  | _ => exact h

theorem afterAll_mono {next next' : Phase → Instr → Option Phase}
    (hnext : ∀ {p q i}, next p i = some q → next' p i = some q) {is : List Instr} {p q : Phase}
    (h : p.afterAll next is = some q) : p.afterAll next' is = some q := by
  induction is generalizing p with
  | nil => exact h
  | cons i is ih =>
    obtain ⟨p', hp', hrest⟩ := afterAll_cons_eq_some_iff.mp h
    exact afterAll_cons_eq_some_iff.mpr ⟨p', hnext hp', ih hrest⟩

/-- A computation reads four words. -/
theorem validReading_of_validComputation {st : Strategy} {t : SaltTable} {fresh : Bool} {is : List Instr}
    (h : ValidComputation st t fresh is) : ValidReading st t fresh 4 is :=
  afterAll_mono after_of_afterInComputation h

/-- A computation whose blocks have the instance's size is served, whatever the instance computed before, and its
responses make a digest. -/
theorem serve_validComputation {st : Strategy} {os : List Offer} {s : State} {blocks : List (List Byte)}
    (hl : s.config.Legal) (hsends : ∀ o ∈ os, o.Sends blocks) (hlen : ∀ b ∈ blocks, b.length = s.config.blockSize)
    (h : ValidComputation st s.config.saltTable false (os.map fun o => o.instr)) :
    ∃ t d, serve os s = .next t ∧ digestOfRun os (t.respChan.drop s.respChan.length) = some d := by
  obtain ⟨t, ws, hserve, hread, hfour⟩ := protocolReadsAsManyWordsAsItAsks st false 4 os s hl
    (fun o ho => (hsends o ho).fits) (fun o ho => (hsends o ho).payload_length hlen)
    (validReading_of_validComputation h)
  obtain ⟨d, hd, -⟩ := joinWords_toNat hfour
  exact ⟨t, d, hserve, by simp only [digestOfRun, hread, hd]⟩

theorem blockSize_pos {c : Configuration} (h : c.Legal) : 1 ≤ c.blockSize := by
  have hsize : BlockSizeLegal c.blockSize := h.left
  omega

theorem exists_foldDigest {sched : FoldSchedule} {len : Nat} {blocks : List (List Byte)} {s : State}
    (hl : s.config.Legal) (hsched : sched.Dutiful s.config.saltTable len)
    (hlen : ∀ b ∈ blocks, b.length = s.config.blockSize) : ∃ d, foldDigest sched len blocks s = some d := by
  induction blocks generalizing s with
  | nil => exact ⟨0, rfl⟩
  | cons b bs ih =>
    obtain ⟨hb, hbs⟩ := List.forall_mem_cons.mp hlen
    obtain ⟨t, d, hserve, hd⟩ := serve_validComputation hl (sends_foldOffers sched len b)
      (List.forall_mem_singleton.mpr hb) (validComputation_foldOffers hsched)
    rw [← serve_config hserve] at hl hsched hbs
    obtain ⟨rest, hrest⟩ := ih hl hsched hbs
    exact ⟨d ^^^ rest, by simp only [foldDigest, hserve, hd, hrest]⟩

/-- Settles O59: the commands of both strategies are computations, over blocks of the instance's size. -/
theorem bothStrategiesEndInADigest : Obligations.BothStrategiesEndInADigest := by
  refine ⟨fun c sched policy file hl hf hsched => ?chain, fun c sched policy file hl hf hsched => ?fold⟩
  all_goals have hlen : ∀ b ∈ blocksOf c.blockSize file, b.length = c.blockSize :=
    fun b hb => length_of_mem_blocksOf (blockSize_pos hl) hb
  case chain =>
    obtain ⟨t, d, hserve, hd⟩ := serve_validComputation (s := State.fresh c) hl
      (sends_chainOffers sched c.blockSize file) hlen
      (validComputation_chainOffers (blockSize_pos hl) hf hsched)
    rw [fresh_respChan, List.length_nil, List.drop_zero] at hd
    exact ⟨d, by simp only [chainHash, if_neg hf, construct_of_legal hl, hserve, hd]⟩
  case fold =>
    obtain ⟨d, hd⟩ := exists_foldDigest (s := State.fresh c) hl hsched hlen
    exact ⟨d, by simp only [foldHash, if_neg hf, construct_of_legal hl, hd]⟩

/-! ## The XOR-fold of blocks (R220) -/

/-- RESET forgets the lanes: a run that begins with it answers the same from all states of one configuration (R37). -/
theorem serve_reset_agree {os : List Offer} {s s' u : State} (hc : s.config = s'.config) (hfit : ∀ o ∈ os, o.Fits)
    (h : serve (Offer.plain .reset :: os) s = .next u) :
    ∃ u' rs, serve (Offer.plain .reset :: os) s' = .next u' ∧ u.respChan = s.respChan ++ rs ∧
      u'.respChan = s'.respChan ++ rs := by
  rw [serve_plain_cons (exec_reset s)] at h
  obtain ⟨u', rs, hserve, -, hresp, hresp'⟩ :=
    serve_agree (s := (s.withEngine Engine.seed).respond .ok 0) (s' := (s'.withEngine Engine.seed).respond .ok 0) rfl hc
      (.inr hfit) h
  exact ⟨u', _ :: rs, (serve_plain_cons (exec_reset s') os).trans hserve, by simpa using hresp, by simpa using hresp'⟩

/-- The sub-digest of a block on an instance in state `s`; none if a command was refused (R220). -/
def blockDigest (sched : FoldSchedule) (len : Nat) (block : List Byte) (s : State) : Option (BitVec 128) :=
  match serve (foldOffers sched len block) s with
  | .next u => digestOfRun (foldOffers sched len block) (u.respChan.drop s.respChan.length)
  | .fault _ => none
  | .refused _ => none

theorem blockDigest_of_agree {sched : FoldSchedule} {len : Nat} {block : List Byte} {s s' : State} {d : BitVec 128}
    (hc : s.config = s'.config) (h : blockDigest sched len block s = some d) :
    blockDigest sched len block s' = some d := by
  unfold blockDigest at h
  split at h
  case h_1 u hserve =>
    obtain ⟨u', rs, hserve', hresp, hresp'⟩ :=
      serve_reset_agree hc (fun o ho => (sends_foldBody sched len block o ho).fits) hserve
    rw [hresp, List.drop_left] at h
    unfold blockDigest
    rw [foldOffers, hserve']
    simp only [hresp', List.drop_left]
    exact h
  case h_2 => cases h
  case h_3 => cases h

/-- A sub-digest belongs to its block and the configuration, whatever the instance computed before. -/
theorem blockDigest_congr {sched : FoldSchedule} {len : Nat} {block : List Byte} {s s' : State}
    (hc : s.config = s'.config) : blockDigest sched len block s = blockDigest sched len block s' :=
  Option.ext fun _ => ⟨blockDigest_of_agree hc, blockDigest_of_agree hc.symm⟩

/-- Combine the sub-digest of a block, made on a fresh instance, with the digest of the others. -/
def xorBlock (sched : FoldSchedule) (len : Nat) (c : Configuration) (block : List Byte) :
    Option (BitVec 128) → Option (BitVec 128) :=
  Option.map₂ (· ^^^ ·) (blockDigest sched len block (State.fresh c))

theorem foldDigest_eq_foldr {sched : FoldSchedule} {len : Nat} {c : Configuration} (blocks : List (List Byte))
    {s : State} (hs : s.config = c) : foldDigest sched len blocks s = blocks.foldr (xorBlock sched len c) (some 0) := by
  induction blocks generalizing s with
  | nil => rfl
  | cons b bs ih =>
    rw [List.foldr_cons, xorBlock, ← blockDigest_congr (s := s) (s' := State.fresh c) hs, foldDigest, blockDigest]
    cases hserve : serve (foldOffers sched len b) s with
    | next u =>
      simp only [ih ((serve_config hserve).trans hs)]
      cases digestOfRun (foldOffers sched len b) (u.respChan.drop s.respChan.length) <;>
        cases bs.foldr (xorBlock sched len c) (some 0) <;> rfl
    | fault => rfl
    | refused => rfl

theorem xorBlock_left_comm (sched : FoldSchedule) (len : Nat) (c : Configuration) :
    LeftCommutative (xorBlock sched len c) :=
  ⟨fun _ _ _ => Option.map₂_left_comm fun a b d => by rw [← BitVec.xor_assoc, BitVec.xor_comm a, BitVec.xor_assoc]⟩

/-- Settles O60: the fold combines sub-digests that belong to the blocks, and exclusive or takes them in any order. -/
theorem xorFoldIgnoresBlockOrder : Obligations.XorFoldIgnoresBlockOrder := by
  intro sched len blocks blocks' s s' hperm hc
  have hcomm := xorBlock_left_comm sched len s'.config
  rw [foldDigest_eq_foldr blocks hc, foldDigest_eq_foldr blocks' rfl, hperm.foldr_eq]

end Sys2Proof.Machine
end
